-- ==== Sys2Proof/Word.lean ====
section
/-! DEFINITION. The word types of IRPC and their plainest arithmetic.

Every quantity of IRPC is an unsigned integer whose width is an open parameter of the instance (R9, R11, D2).
A register is therefore held as a Nat, its width is a field of `Params`, and `Safety.lean` states the invariant that
every register stays inside its width (notes/assumptions/1.md). A duration (one element of RAW, one half of an OUT
pair, one timing register: R11, R34, R46) is a Nat, in microseconds. -/

namespace Sys2Proof

/-- `v` is representable in `w` bits (R11: every quantity is unsigned). -/
def fits (w v : Nat) : Bool := decide (v < 2 ^ w)

/-- `v mod 2^w` (R11). -/
def trunc (w v : Nat) : Nat := v % 2 ^ w

/-- `v[i]`, bit `i` of `v`, bit 0 the least significant (R11). -/
def bitAt (v i : Nat) : Bool := v.testBit i

/-- Format TXPAIR: one entry of OUT, the mark before the space (R46, R90). -/
structure Pulse where
  mark : Nat
  space : Nat
  deriving DecidableEq, Repr

end Sys2Proof
end

