-- ==== Sys2Proof/Config.lean ====
section
/-! DEFINITION. The parameters of one IRPC instance (R9), its twelve configuration registers (R21 to R33), the
reference configuration REF (R15), and the free values the spec leaves open (R208, R246, U6, U9, U10). -/

namespace Sys2Proof

/-- BIT_ENCODED_BY (R31). Only `markWidth` makes a legal instance (R104). -/
inductive BitEncodedBy where
  | markWidth
  | spaceWidth
  deriving DecidableEq, Repr

/-- LEN_CHECK (R32). -/
inductive LenCheck where
  | lenient
  | strict
  deriving DecidableEq, Repr

/-- One instance's parameter set: the structural parameters of R9 and the configuration registers of R21 to R32.
They are constant for the life of the instance (R33). -/
structure Params where
  /-- DUR_W (R9): width of one duration. -/
  durW : Nat
  /-- VAL_W (R9): width of the value and of the accumulator. -/
  valW : Nat
  /-- CNT_W (R9): width of a bit count. -/
  cntW : Nat
  /-- RAW_CAP (R9): capacity of RAW in elements. -/
  rawCap : Nat
  /-- KHZ_W (R9): width of the carrier frequency. -/
  khzW : Nat
  /-- CARRIER_KHZ (R21). -/
  carrierKhz : Nat
  /-- HDR_MARK_US (R22). -/
  hdrMarkUs : Nat
  /-- HDR_SPACE_US (R23). -/
  hdrSpaceUs : Nat
  /-- ONE_MARK_US (R24). -/
  oneMarkUs : Nat
  /-- ZERO_MARK_US (R25). -/
  zeroMarkUs : Nat
  /-- INTER_SPACE_US (R26). -/
  interSpaceUs : Nat
  /-- MIN_BITS (R27). -/
  minBits : Nat
  /-- MAX_BITS (R28). -/
  maxBits : Nat
  /-- TOL_PCT (R29): an instance that sets nothing has 25 (R124). -/
  tolPct : Nat := 25
  /-- TOL_FLOOR_US (R30). -/
  tolFloorUs : Nat
  /-- BIT_ENCODED_BY (R31). -/
  bitEncodedBy : BitEncodedBy
  /-- LEN_CHECK (R32): the default is Lenient. -/
  lenCheck : LenCheck := .lenient
  deriving DecidableEq, Repr

/-- OUT_CAP = VAL_W + 1 (R9). -/
def Params.outCap (p : Params) : Nat := p.valW + 1

/-- IDX_W: the least width that holds RAW_CAP (R35). -/
def Params.idxW (p : Params) : Nat := Nat.log2 p.rawCap + 1

/-- REF, the reference configuration (R15). -/
def Params.ref : Params where
  durW := 32
  valW := 32
  cntW := 16
  rawCap := 256
  khzW := 16
  carrierKhz := 38
  hdrMarkUs := 2400
  hdrSpaceUs := 600
  oneMarkUs := 1200
  zeroMarkUs := 600
  interSpaceUs := 600
  minBits := 1
  maxBits := 32
  tolPct := 25
  tolFloorUs := 100
  bitEncodedBy := .markWidth
  lenCheck := .lenient

/-- FREE VALUE: the n-th value the decoder draws for a register that R208 leaves unspecified (U6: any value).
It has no body, so nothing can be proved about its value. -/
opaque Config.freeValue : Nat → Nat

/-- FREE VALUE: what a host read answers where the spec leaves the content unspecified (R40, R41, R46, R246, U7, U9,
U10: any value), by the number of the thing read and the draw counter. It has no body. -/
opaque Config.freeRead : Nat → Nat → Nat

end Sys2Proof
end

