-- ==== Sys2Proof/Machine/Matcher.lean ====
section
/-! DEFINITION. The tolerance matcher (R120 to R126) and the two uses the decoder's rules make of it: the expected
space by position (R98) and the bit a mark's width carries (R147). Pure functions of a parameter set. -/

namespace Sys2Proof

/-- The tolerance of an expected duration: the larger of the percentage of the expected value, rounded toward zero,
and the fixed floor (R120). -/
def Params.tol (p : Params) (e : Nat) : Nat := max (e * p.tolPct / 100) p.tolFloorUs

/-- MATCH (R121), in the form without negative numbers of R122: both ends of the band are inside it. -/
def Params.matches (p : Params) (o e : Nat) : Bool :=
  decide (e ≤ o + p.tol e) && decide (o ≤ e + p.tol e)

/-- XS(i): the space expected at index `i` (R98, R145). -/
def Params.expectedSpace (p : Params) (i : Nat) : Nat :=
  if i = 2 then p.hdrSpaceUs else p.interSpaceUs

/-- The bit a mark carries, the one mark tested first; `none` is an unrecognised width (R147). -/
def Params.bitOfMark (p : Params) (m : Nat) : Option Bool :=
  if p.matches m p.oneMarkUs then some true
  else if p.matches m p.zeroMarkUs then some false
  else none

/-- The pair the encoder emits for a data bit: BIT1 or BIT0 (R99, R183). -/
def Params.bitPair (p : Params) (b : Bool) : Pulse :=
  ⟨if b then p.oneMarkUs else p.zeroMarkUs, p.interSpaceUs⟩

/-- The header pair HDR (R99, R182). -/
def Params.hdrPair (p : Params) : Pulse := ⟨p.hdrMarkUs, p.hdrSpaceUs⟩

end Sys2Proof
end

