-- ==== Sys2Proof/Syntax.lean ====
section
/-! DEFINITION. The instructions of IRPC: one constructor per row of spec/opcode_table.json (R13, R107).

Three formats take part: the command words the host writes (CMD), the internal function MATCH (FUNC), and the symbols
of a frame, which the decoder reads (RXELEM, RXPAIR) or the encoder emits (TXPAIR). -/

namespace Sys2Proof

inductive Instr where
  /-- CMD 0b00: nothing (R106). -/
  | nop
  /-- CMD with bit 0 set: start a DECODE (R106, R141). `enc` is CMD bit 1, the independent ENCODE start bit, so
  `decode true` is the word 0b11. -/
  | decode (enc : Bool)
  /-- CMD 0b10: start an ENCODE (R106, R180). The word whose bit 0 is set as well is `decode true`. -/
  | encode
  /-- MATCH, the internal function `matches(observed, expected)` (R121). -/
  | matchOp (observed expected : Nat)
  /-- LEAD: the element at index 0, never read, hence no operand (R94, R63). -/
  | lead
  /-- HDRM: the header mark at index 1 (R95). -/
  | hdrm (dur : Nat)
  /-- SBIT1: a (space, mark) pair that carries a 1 (R96). -/
  | sbit1 (space mark : Nat)
  /-- SBIT0: a (space, mark) pair that carries a 0 (R97). -/
  | sbit0 (space mark : Nat)
  /-- HDR: the header pair of the encoder's output (R99, R182). -/
  | hdr
  /-- BIT1: the pair of a one bit (R99, R183). -/
  | bit1
  /-- BIT0: the pair of a zero bit (R99, R183). -/
  | bit0
  deriving DecidableEq, Repr

end Sys2Proof
end

