-- ==== Sys2Proof/WellFormed.lean ====
section
/-! DEFINITION. Well-formedness: of a parameter set (WF1 to WF7 of R10) and of an instruction at a position
(the "position" and selection columns of spec/opcode_table.json; R93 to R99). -/

namespace Sys2Proof

/-- A duration parameter is strictly positive and fits DUR_W bits. -/
def Params.durOk (p : Params) (d : Nat) : Bool := decide (0 < d) && fits p.durW d

/-- WF1 (R10). -/
def Params.durationsOk (p : Params) : Bool :=
  p.durOk p.hdrMarkUs && p.durOk p.hdrSpaceUs && p.durOk p.oneMarkUs && p.durOk p.zeroMarkUs && p.durOk p.interSpaceUs

/-- WF2 (R10). -/
def Params.marksDiffer (p : Params) : Bool := decide (p.oneMarkUs ≠ p.zeroMarkUs)

/-- WF3 (R10), and the width of CARRIER_KHZ (R21). -/
def Params.carrierOk (p : Params) : Bool := decide (0 < p.carrierKhz) && fits p.khzW p.carrierKhz

/-- WF4 (R10): the nominal zero mark lies outside the band of the one mark. -/
def Params.marksSeparable (p : Params) : Bool := !p.matches p.zeroMarkUs p.oneMarkUs

/-- WF5 (R10). -/
def Params.bitRangeOk (p : Params) : Bool := decide (p.minBits ≤ p.maxBits) && decide (p.maxBits ≤ p.valW)

/-- WF6 (R10). -/
def Params.toleranceOk (p : Params) : Bool := decide (p.tolPct ≤ 100) && fits p.durW p.tolFloorUs

/-- WF7 (R10): the constraints of R9's table; SpaceWidth is refused (R104). -/
def Params.shapeOk (p : Params) : Bool :=
  decide (1 ≤ p.durW) && decide (2 ≤ p.rawCap) && decide (1 ≤ p.khzW) &&
    fits p.cntW (max (p.valW + 1) ((p.rawCap - 1) / 2)) && decide (p.bitEncodedBy = .markWidth)

/-- A well-formed parameter set (R10). -/
def Params.wf (p : Params) : Bool :=
  p.durationsOk && p.marksDiffer && p.carrierOk && p.marksSeparable && p.bitRangeOk && p.toleranceOk && p.shapeOk

/-- An even index of RAW at which a whole (space, mark) pair can stand (R90, R93). -/
def Params.pairPos (p : Params) (pos : Nat) : Bool :=
  decide (2 ≤ pos) && decide (pos % 2 = 0) && decide (pos + 1 < p.rawCap)

/-- The instruction is one that can stand at position `pos` of its space: an index of RAW for an RX symbol, an index
of OUT for a TX symbol; a command word and MATCH have no position. -/
def Instr.wf (p : Params) (pos : Nat) : Instr → Bool
  | .nop => true
  | .decode _ => true
  | .encode => true
  | .matchOp o e => fits p.durW o && fits p.durW e && decide (0 < e)
  | .lead => decide (pos = 0)
  | .hdrm d => decide (pos = 1) && fits p.durW d && p.matches d p.hdrMarkUs
  | .sbit1 sp mk =>
    p.pairPos pos && fits p.durW sp && fits p.durW mk && p.matches sp (p.expectedSpace pos) &&
      decide (p.bitOfMark mk = some true)
  | .sbit0 sp mk =>
    p.pairPos pos && fits p.durW sp && fits p.durW mk && p.matches sp (p.expectedSpace pos) &&
      decide (p.bitOfMark mk = some false)
  | .hdr => decide (pos = 0)
  | .bit1 => decide (1 ≤ pos) && decide (pos < p.outCap)
  | .bit0 => decide (1 ≤ pos) && decide (pos < p.outCap)

end Sys2Proof
end

