-- ==== Sys2Proof/Decode.lean ====
section
/-! DEFINITION. Decoding and encoding (R90 to R107). A `Code` is an encoded instruction in one of the four formats of
R90; `decodeCode` reads it at a position and rejects by name; `encode` writes it. -/

namespace Sys2Proof

/-- An encoded instruction, by format (R90). MATCH has no encoding; `func` is its call form (R107, R109). -/
inductive Code where
  /-- CMD: the command word, bit 0 `dec`, bit 1 `enc`. -/
  | cmd (word : Nat)
  /-- RXELEM (one element) or RXPAIR (space, then mark). -/
  | rx (elems : List Nat)
  /-- TXPAIR. -/
  | tx (pair : Pulse)
  /-- The call `matches(observed, expected)`. -/
  | func (observed expected : Nat)
  deriving DecidableEq, Repr

/-- Why a code is no instruction at its position. -/
inductive DecodeError where
  /-- CMD has two bits; this number needs more (R50). -/
  | notACommandWord
  /-- No symbol of this shape can stand at this index (R93). -/
  | noSymbolHere
  /-- Index 1 does not match HDR_MARK_US (R95, R201). -/
  | notHeaderMark
  /-- The space does not match the one expected there (R105, R202). -/
  | spaceMismatch
  /-- The mark matches neither bit mark (R105, R203). -/
  | unknownMark
  /-- The pair is no symbol the encoder emits at this index (R99). -/
  | notAnEmittedPair
  /-- MATCH's expected duration is a configuration register, hence positive (R120). -/
  | expectedZero
  deriving DecidableEq, Repr

/-- The command words (R106): bit 0 starts a DECODE, bit 1 an ENCODE (0b11: DESIGN CHOICE, notes/assumptions/14.md). -/
def decodeCmd (w : Nat) : Except DecodeError Instr :=
  if 4 ≤ w then .error .notACommandWord
  else if bitAt w 0 then .ok (.decode (bitAt w 1))
  else if bitAt w 1 then .ok .encode
  else .ok .nop

/-- The space test of a pair at index `i`, made before the mark is read (R145, R211). -/
def decodeSpace (p : Params) (i : Nat) (sp : Nat) : Except DecodeError Unit :=
  if p.matches sp (p.expectedSpace i) then .ok () else .error .spaceMismatch

/-- The mark of a pair whose space has passed: SBIT1, SBIT0 or no symbol (R96, R97, R147). -/
def decodeMark (p : Params) (sp mk : Nat) : Except DecodeError Instr :=
  match p.bitOfMark mk with
  | some true => .ok (.sbit1 sp mk)
  | some false => .ok (.sbit0 sp mk)
  | none => .error .unknownMark

/-- The header mark (R95). -/
def decodeHdrm (p : Params) (d : Nat) : Except DecodeError Instr :=
  if p.matches d p.hdrMarkUs then .ok (.hdrm d) else .error .notHeaderMark

/-- A (space, mark) pair at index `i` (R96, R97). -/
def decodePair (p : Params) (i : Nat) (sp mk : Nat) : Except DecodeError Instr :=
  match decodeSpace p i sp with
  | .ok _ => decodeMark p sp mk
  | .error e => .error e

/-- The symbol read at index `pos` of RAW; its class is decided by the position alone (R93). -/
def decodeRx (p : Params) (pos : Nat) (elems : List Nat) : Except DecodeError Instr :=
  match elems with
  | [d] =>
    if pos = 0 then .ok .lead
    else if pos = 1 then decodeHdrm p d
    else .error .noSymbolHere
  | [sp, mk] => if p.pairPos pos then decodePair p pos sp mk else .error .noSymbolHere
  | _ => .error .noSymbolHere

/-- The symbol that a pair at index `pos` of OUT is: exact values, no tolerance (R70, R99; DESIGN CHOICE,
notes/assumptions/23.md). -/
def decodeTx (p : Params) (pos : Nat) (q : Pulse) : Except DecodeError Instr :=
  if pos = 0 then (if q = p.hdrPair then .ok .hdr else .error .notAnEmittedPair)
  else if p.outCap ≤ pos then .error .noSymbolHere
  else if q = p.bitPair true then .ok .bit1
  else if q = p.bitPair false then .ok .bit0
  else .error .notAnEmittedPair

/-- The instruction that a code at a position is. -/
def decodeCode (p : Params) (pos : Nat) : Code → Except DecodeError Instr
  | .cmd w => decodeCmd w
  | .rx es => decodeRx p pos es
  | .tx q => decodeTx p pos q
  | .func o e => if e = 0 then .error .expectedZero else .ok (.matchOp o e)

/-- The encoder of instructions, from the tables of R94 to R99 and R106. LEAD's element may hold any value; the
encoder writes 0 (DESIGN CHOICE, notes/assumptions/15.md). -/
def encode (p : Params) : Instr → Code
  | .nop => .cmd 0b00
  | .decode false => .cmd 0b01
  | .decode true => .cmd 0b11
  | .encode => .cmd 0b10
  | .matchOp o e => .func o e
  | .lead => .rx [0]
  | .hdrm d => .rx [d]
  | .sbit1 sp mk => .rx [sp, mk]
  | .sbit0 sp mk => .rx [sp, mk]
  | .hdr => .tx p.hdrPair
  | .bit1 => .tx (p.bitPair true)
  | .bit0 => .tx (p.bitPair false)

/-- Every field of the code fits its width (R90). -/
def Code.fitsIn (p : Params) : Code → Bool
  | .cmd w => fits 2 w
  | .rx es => es.all (fits p.durW)
  | .tx q => fits p.durW q.mark && fits p.durW q.space
  | .func o e => fits p.durW o && fits p.durW e

/-- The host's reading of a table word: only the CMD rows have a word of bits (R107). -/
def decodeTableWord (nbits w : Nat) : Option Instr :=
  match decodeCmd (w % 2 ^ nbits) with
  | .ok i => some i
  | .error _ => none

end Sys2Proof
end

