-- ==== Sys2Proof/Machine/State.lean ====
section
/-! DEFINITION. The state of one IRPC instance (R20 to R57), its faults and refusals, and the state after reset (R55).
State is plain data. The last four fields are the MODEL's own: the spec names none of them. -/

namespace Sys2Proof.Machine

/-- DSTATE (R42). -/
inductive DState where
  | idle
  | skip
  | hdr
  | bits
  | fin
  deriving DecidableEq, Repr

/-- ESTATE (R45). -/
inductive EState where
  | idle
  | hdr
  | bits
  deriving DecidableEq, Repr

/-- The three agents that take steps (R7). -/
inductive Agent where
  | host
  | decoder
  | encoder
  deriving DecidableEq, Repr

/-- What the host can do to the block (R57, R108, R216): the moves that change something. Reads are `hostRead`. -/
inductive HostMove where
  /-- Write CMD (R50, R106). -/
  | cmd (word : Nat)
  /-- Write one element of RAW (R34, R57). -/
  | writeRaw (i : Nat) (e : Nat)
  /-- Write RAW_LEN (R35, R57). -/
  | writeRawLen (n : Nat)
  /-- LOADRAW: write RAW[0 ..] and RAW_LEN (R108). -/
  | loadRaw (es : List Nat)
  /-- Write ENC_VALUE (R43, R57). -/
  | writeEncValue (v : Nat)
  /-- Write ENC_BITS (R44, R57). -/
  | writeEncBits (n : Nat)
  /-- SETENC: write ENC_VALUE and ENC_BITS (R108). -/
  | setEnc (v n : Nat)
  /-- LOOPBACK: load toCapture(g, OUT), or toCaptureNoTail(g, OUT) when `tail` is false (R78, R108). -/
  | loopback (g : Nat) (tail : Bool)
  /-- Wait for DEC_DONE = 1 (R108). -/
  | awaitDec
  /-- Wait for ENC_DONE = 1 (R108). -/
  | awaitEnc
  /-- Assert reset (R240, R241). -/
  | reset
  deriving DecidableEq, Repr

/-- A buffer: (index, entry) pairs, indices strictly rising. An index that is not listed has never been written
(R55: unspecified) and reads as no value (DESIGN CHOICE, notes/assumptions/4.md). Entries are whole: there is no byte
order (R66). -/
abbrev Memory (α : Type) := List (Nat × α)

/-- The canonical form: indices strictly rising. -/
def Memory.wf {α : Type} : Memory α → Bool
  | [] => true
  | [_] => true
  | a :: b :: rest => decide (a.1 < b.1) && Memory.wf (b :: rest)

structure State where
  /-- The configuration registers and the structural parameters (R9, R21 to R33). -/
  cfg : Params
  /-- RAW (R34). -/
  raw : Memory Nat
  /-- RAW_LEN (R35). -/
  rawLen : Nat
  /-- OFS (R36). -/
  ofs : Nat
  /-- DATA (R37). -/
  data : Nat
  /-- DSTATE (R42). -/
  dstate : DState
  /-- DEC_DONE (R38). -/
  decDone : Bool
  /-- DEC_MATCH (R39). -/
  decMatch : Bool
  /-- DEC_VALUE (R40). -/
  decValue : Nat
  /-- DEC_BITS (R41). -/
  decBits : Nat
  /-- ENC_VALUE (R43). -/
  encValue : Nat
  /-- ENC_BITS (R44). -/
  encBits : Nat
  /-- ESTATE (R45). -/
  estate : EState
  /-- BITIDX (R45). -/
  bitIdx : Nat
  /-- OUT (R46). -/
  out : Memory Pulse
  /-- OUT_LEN (R46). -/
  outLen : Nat
  /-- ENC_DONE (R47). -/
  encDone : Bool
  /-- ENC_ERR (R48). -/
  encErr : Bool
  /-- MODEL's own: the one-bit result of a MATCH evaluated by itself (R121 gives it to the caller and stores it
  nowhere). No operation reads it (DESIGN CHOICE, notes/assumptions/6.md). -/
  matchOut : Bool
  /-- MODEL's own: how many free values have been drawn (R208; DESIGN CHOICE, notes/assumptions/5.md). -/
  draws : Nat
  /-- MODEL's own: the host's moves still to come, first move first (R256; DESIGN CHOICE,
  notes/assumptions/8.md). -/
  moves : List HostMove
  /-- MODEL's own: which agents take the next steps, first agent first (R217: any interleaving; DESIGN
  CHOICE, notes/assumptions/7.md). -/
  sched : List Agent
  deriving DecidableEq, Repr

/-- Why the machine stops with a fault. The spec gives the block no access fault (R68, R200): each of these is a fault
of the MODEL, and all are safe. -/
inductive Fault where
  /-- Raised by `State.readRaw`: an element of RAW below RAW_LEN that the host never wrote (R55, R244, U8). Safe. -/
  | rawUnwritten
  /-- Raised by `State.readRaw`: an index of RAW at or above RAW_CAP, which does not exist (R34, R60, R68). Safe, and
  never met from a state that satisfies `State.Inv`. -/
  | rawIndexOutside
  /-- Raised by `State.writeOut`: an index of OUT at or above OUT_CAP, which does not exist (R46, R68). Safe, and never
  met from a state that satisfies `State.Inv`. -/
  | outIndexOutside
  deriving DecidableEq, Repr

/-- Why something has no meaning. All are safe. -/
inductive Refusal where
  /-- Raised by an arm of `exec` whose instruction has no meaning yet. No arm does. Safe. -/
  | notModelled (mnemonic : String)
  /-- Raised by `step` on an instance whose parameters break WF1 to WF7 or ask for SpaceWidth (R10, R104, U1, U2): no
  such instance exists. Safe. -/
  | illFormedConfig
  /-- Raised by `hostMove` on a command number of more than two bits (R50): the host has no such write. Safe. -/
  | notACommandWord
  /-- Raised by a frame symbol's meaning when its engine is not at a place where the symbol can stand (R93, R94 to R99,
  R183). `step` runs no symbol there. Safe. -/
  | symbolOutOfPlace
  /-- Raised by `hostMove`: a write of RAW or RAW_LEN while DEC_BUSY = 1, or of ENC_VALUE or ENC_BITS while ENC_BUSY = 1,
  to which the spec gives no meaning (R73, U5). Safe for runs that keep the contract. -/
  | hostWriteWhileBusy
  /-- Raised by `hostMove`: an index, length or value outside the register it is written to (R34, R35, R43, R44, R216).
  The host has no such write. Safe. -/
  | hostWriteOutside
  deriving DecidableEq, Repr

/-- The outcome of one step. -/
abbrev Result := Host.Outcome State Fault Refusal

/-- DEC_BUSY (R42). -/
def State.decBusy (s : State) : Bool := decide (s.dstate ≠ .idle)

/-- ENC_BUSY (R45). -/
def State.encBusy (s : State) : Bool := decide (s.estate ≠ .idle)

/-- TX_KHZ, wired to CARRIER_KHZ (R49). -/
def State.txKhz (s : State) : Nat := s.cfg.carrierKhz

/-- An instance with parameters `p` right after reset (R55, R240). The spec leaves the registers OFS, DATA, RAW_LEN,
DEC_VALUE, DEC_BITS, ENC_VALUE, ENC_BITS and BITIDX unspecified: the value 0 is the model's (DESIGN CHOICE, unsafe,
notes/assumptions/3.md). -/
def State.resetOf (p : Params) : State where
  cfg := p
  raw := []
  rawLen := 0
  ofs := 0
  data := 0
  dstate := .idle
  decDone := false
  decMatch := false
  decValue := 0
  decBits := 0
  encValue := 0
  encBits := 0
  estate := .idle
  bitIdx := 0
  out := []
  outLen := 0
  encDone := false
  encErr := false
  matchOut := false
  draws := 0
  moves := []
  sched := []

/-- The reference instance right after reset (R15, R55; DESIGN CHOICE, notes/assumptions/2.md). -/
def State.reset : State := State.resetOf Params.ref

end Sys2Proof.Machine
end

