-- ==== Sys2Proof/Machine/Flags.lean ====
section
/-! DEFINITION. The four status flags (R51): every way in which an operation writes them. -/

namespace Sys2Proof.Machine

/-- DEC_DONE at the start of a DECODE (R141). DEC_MATCH is written at the end only. -/
def State.decStartFlags (s : State) : State := { s with decDone := false }

/-- DEC_MATCH and DEC_DONE at the end of a DECODE: Match (R151) or NoMatch (R207). -/
def State.decEndFlags (isMatch : Bool) (s : State) : State := { s with decMatch := isMatch, decDone := true }

/-- ENC_DONE at the start of an ENCODE (R180). -/
def State.encStartFlags (s : State) : State := { s with encDone := false }

/-- ENC_ERR and ENC_DONE at the end of an ENCODE: done (R185) or refused (R204). -/
def State.encEndFlags (isErr : Bool) (s : State) : State := { s with encErr := isErr, encDone := true }

end Sys2Proof.Machine
end

