-- ==== Sys2Proof/Machine/Ops.lean ====
section
/-! DEFINITION. The shared operations: the two buffers (R60 to R71), the two events that end an operation other than by
success (NoMatch R207, EncPrecondition R204), and reset (R240). Neither event transfers control, and nothing is
returned from (R212): the engine is idle and ready for the next start. -/

namespace Sys2Proof.Machine

/-- The entry at index `i`, if one has been written. -/
def Memory.read {α : Type} : Memory α → Nat → Option α
  | [], _ => none
  | (j, v) :: rest, i => if j = i then some v else Memory.read rest i

/-- Write one entry, keeping the indices strictly rising. -/
def Memory.write {α : Type} : Memory α → Nat → α → Memory α
  | [], i, v => [(i, v)]
  | (j, w) :: rest, i, v =>
    if i < j then (i, v) :: (j, w) :: rest
    else if i = j then (i, v) :: rest
    else (j, w) :: Memory.write rest i v

/-- Write a run of entries from index `i` on. -/
def Memory.writeList {α : Type} : Memory α → Nat → List α → Memory α
  | m, _, [] => m
  | m, i, v :: vs => Memory.writeList (m.write i v) (i + 1) vs

/-- `RAW[i]` (R12, R60): one whole element. -/
def State.readRaw (s : State) (i : Nat) : Except Fault Nat :=
  if s.cfg.rawCap ≤ i then .error .rawIndexOutside
  else match s.raw.read i with
    | some d => .ok d
    | none => .error .rawUnwritten

/-- `OUT[k] <- q` (R12, R71): one whole pair. -/
def State.writeOut (s : State) (k : Nat) (q : Pulse) : Except Fault State :=
  if s.cfg.outCap ≤ k then .error .outIndexOutside
  else .ok { s with out := s.out.write k q }

/-- The end of a DECODE, with either outcome: OFS and DATA are unspecified afterwards (R208). Each becomes a free value,
inside its register's width (DESIGN CHOICE, notes/assumptions/5.md). -/
def State.forgetPosition (s : State) : State :=
  { s with
    ofs := trunc s.cfg.idxW (Config.freeValue s.draws)
    data := trunc s.cfg.valW (Config.freeValue (s.draws + 1))
    draws := s.draws + 2 }

/-- `raise NoMatch` (R207): DEC_MATCH <- 0, DEC_DONE <- 1, DSTATE <- D_IDLE. DEC_VALUE and DEC_BITS are unspecified
afterwards, as OFS and DATA are (R208): each becomes a free value, inside its register's width (DESIGN CHOICE,
notes/assumptions/5.md). -/
def State.raiseNoMatch (s : State) : State :=
  { (s.decEndFlags false).forgetPosition with
    dstate := .idle
    decValue := trunc s.cfg.valW (Config.freeValue (s.draws + 2))
    decBits := trunc s.cfg.cntW (Config.freeValue (s.draws + 3))
    draws := s.draws + 4 }

/-- `raise EncPrecondition` (R204): OUT is not written. -/
def State.raiseEncPrecondition (s : State) : State :=
  { s.encEndFlags true with outLen := 0, estate := .idle }

/-- Start a DECODE if the decoder is idle; a start while busy is dropped (R106, R141). -/
def State.startDecode (s : State) : State :=
  if s.decBusy then s else { s.decStartFlags with dstate := .skip }

/-- Start an ENCODE if the encoder is idle; a start while busy is dropped (R106, R180). -/
def State.startEncode (s : State) : State :=
  if s.encBusy then s else { s.encStartFlags with estate := .hdr }

/-- Reset asserted by the host (R240, R241): every register takes its reset value, an operation in flight is
abandoned, the configuration is untouched. What is outside the block (the host's moves, the schedule) and the count of
free values go on (DESIGN CHOICE, notes/assumptions/12.md). -/
def State.applyReset (s : State) : State :=
  { State.resetOf s.cfg with draws := s.draws, moves := s.moves, sched := s.sched }

end Sys2Proof.Machine
end

