-- ==== Sys2Proof/Machine/Operands.lean ====
section
/-! DEFINITION. Where the engines take their operands from: the pair at OFS (R144, R145), the accumulator's next value
(R148), the bit count (R149), the encoder's next bit and the index of its next pair (R183). -/

namespace Sys2Proof.Machine

/-- At least two elements remain in the capture (R144). -/
def State.pairRemains (s : State) : Bool := decide (2 ≤ s.rawLen - s.ofs)

/-- The space expected at OFS, XS(OFS) (R98, R145). -/
def State.spaceHere (s : State) : Nat := s.cfg.expectedSpace s.ofs

/-- `((DATA << 1) | b) mod 2^VAL_W` (R100, R148). -/
def State.shiftIn (s : State) (b : Bool) : Nat := trunc s.cfg.valW ((s.data <<< 1) ||| b.toNat)

/-- `n = (OFS - 1) div 2` (R101, R149). -/
def State.bitCount (s : State) : Nat := (s.ofs - 1) / 2

/-- The count fails the length check: Strict mode only (R150). -/
def State.lengthBad (s : State) : Bool :=
  decide (s.cfg.lenCheck = .strict) &&
    (decide (s.bitCount < s.cfg.minBits) || decide (s.cfg.maxBits < s.bitCount))

/-- ENC_BITS is outside 1 to VAL_W (R181). -/
def State.encBitsBad (s : State) : Bool := decide (s.encBits < 1) || decide (s.cfg.valW < s.encBits)

/-- ENC_VALUE[BITIDX], the bit the encoder emits next (R102, R183). -/
def State.nextBit (s : State) : Bool := bitAt s.encValue s.bitIdx

/-- `1 + k` with `k = ENC_BITS - 1 - BITIDX`: the index in OUT of the pair of that bit (R183). -/
def State.nextIndex (s : State) : Nat := 1 + (s.encBits - 1 - s.bitIdx)

end Sys2Proof.Machine
end

