-- ==== Sys2Proof/Machine/Command.lean ====
section
/-! DEFINITION. The meanings of the command words (CMD rows: R106, R141, R180). -/

namespace Sys2Proof.Machine

/-- NOP: nothing (R106). -/
def execNop (s : State) : Result := .next s

/-- DECODE, and with CMD bit 1 set ENCODE as well, independently (R106, R141). -/
def execDecode (enc : Bool) (s : State) : Result :=
  .next (if enc then s.startDecode.startEncode else s.startDecode)

/-- ENCODE (R106, R180). -/
def execEncode (s : State) : Result := .next s.startEncode

end Sys2Proof.Machine
end

