-- ==== Sys2Proof/Machine/Decoder.lean ====
section
/-! DEFINITION. The meanings of the symbols the decoder reads (RX rows) and the decoder's two steps that read no symbol:
the exit from the pair loop and the final step (R142 to R151). -/

namespace Sys2Proof.Machine

/-- LEAD: the D_SKIP step (R142). The element is not read (R63). -/
def execLead (s : State) : Result :=
  if s.dstate = .skip then
    if s.rawLen < 2 then .next s.raiseNoMatch else .next { s with ofs := 1, dstate := .hdr }
  else .refused .symbolOutOfPlace

/-- HDRM: the D_HDR step on the header mark `d` (R143). -/
def execHdrm (d : Nat) (s : State) : Result :=
  if s.dstate = .hdr then
    if s.cfg.matches d s.cfg.hdrMarkUs then .next { s with ofs := 2, data := 0, dstate := .bits }
    else .next s.raiseNoMatch
  else .refused .symbolOutOfPlace

/-- Accumulate and advance (R148). -/
def State.acceptBit (s : State) (b : Bool) : State := { s with data := s.shiftIn b, ofs := s.ofs + 2 }

/-- One D_BITS step on the pair at OFS (R144 to R148): the space first, then the mark, the one mark tested first
(DEDUCED, notes/assumptions/16.md). -/
def pairStep (sp mk : Nat) (s : State) : Result :=
  if s.dstate = .bits ∧ s.pairRemains then
    if s.cfg.matches sp s.spaceHere then
      match s.cfg.bitOfMark mk with
      | some b => .next (s.acceptBit b)
      | none => .next s.raiseNoMatch
    else .next s.raiseNoMatch
  else .refused .symbolOutOfPlace

/-- SBIT1 (R96), by R145 to R148: on every pair the row selects, the bit is 1. -/
def execSbit1 (sp mk : Nat) (s : State) : Result := pairStep sp mk s

/-- SBIT0 (R97), by R145 to R148: on every pair the row selects, the bit is 0. -/
def execSbit0 (sp mk : Nat) (s : State) : Result := pairStep sp mk s

/-- The else branch of R144: fewer than two elements remain. -/
def State.loopExit (s : State) : State := { s with dstate := .fin }

/-- Match: the result registers (R151). OFS and DATA are unspecified afterwards (R208) and become free values (DESIGN
CHOICE, notes/assumptions/5.md). -/
def State.finishMatch (s : State) : State :=
  { (s.decEndFlags true).forgetPosition with decValue := s.data, decBits := s.bitCount, dstate := .idle }

/-- The D_FIN step (R149 to R151). -/
def State.finalize (s : State) : State := if s.lengthBad then s.raiseNoMatch else s.finishMatch

end Sys2Proof.Machine
end

