-- ==== Sys2Proof/Machine/Encoder.lean ====
section
/-! DEFINITION. The meanings of the symbols the encoder emits (TX rows): the E_HDR and E_BITS steps (R181 to R185). -/

namespace Sys2Proof.Machine

/-- HDR: the E_HDR step (R181, R182). -/
def execHdr (s : State) : Result :=
  if s.estate = .hdr then
    if s.encBitsBad then .next s.raiseEncPrecondition
    else match s.writeOut 0 s.cfg.hdrPair with
      | .ok t => .next { t with bitIdx := s.encBits - 1, estate := .bits }
      | .error f => .fault f
  else .refused .symbolOutOfPlace

/-- The end of the bit loop and completion (R184, R185). -/
def State.finishEncode (s : State) : State :=
  { s.encEndFlags false with outLen := s.encBits + 1, estate := .idle }

/-- One E_BITS step that emits the pair of bit `b` (R183): the pair is written, then the loop goes on or ends. -/
def emitBit (b : Bool) (s : State) : Result :=
  match s.writeOut s.nextIndex (s.cfg.bitPair b) with
  | .ok t => .next (if s.bitIdx = 0 then t.finishEncode else { t with bitIdx := s.bitIdx - 1 })
  | .error f => .fault f

/-- BIT1: emitted where ENC_VALUE[BITIDX] = 1 (R99, R183). -/
def execBit1 (s : State) : Result :=
  if s.estate = .bits ∧ s.nextBit = true then emitBit true s else .refused .symbolOutOfPlace

/-- BIT0: emitted where ENC_VALUE[BITIDX] = 0 (R99, R183). -/
def execBit0 (s : State) : Result :=
  if s.estate = .bits ∧ s.nextBit = false then emitBit false s else .refused .symbolOutOfPlace

end Sys2Proof.Machine
end

