-- ==== Sys2Proof/Machine/Function.lean ====
section
/-! DEFINITION. The meaning of the FUNC row MATCH (R121) evaluated by itself. Inside a DECODE the decoder's steps
evaluate `Params.matches` and consume the bit themselves (R51). -/

namespace Sys2Proof.Machine

/-- MATCH: no flag and no state of the spec is written (R121); the result bit stands in the model's own `matchOut`
(DESIGN CHOICE, notes/assumptions/6.md). -/
def execMatchOp (o e : Nat) (s : State) : Result := .next { s with matchOut := s.cfg.matches o e }

end Sys2Proof.Machine
end

