-- ==== Sys2Proof/Machine/Dispatch.lean ====
section
/-! DEFINITION. One arm per constructor of Instr. -/

namespace Sys2Proof.Machine

def exec (i : Instr) (s : State) : Host.Outcome State Fault Refusal :=
  match i with
  | .nop => Sys2Proof.Machine.execNop s
  | .decode enc => Sys2Proof.Machine.execDecode enc s
  | .encode => Sys2Proof.Machine.execEncode s
  | .matchOp o e => Sys2Proof.Machine.execMatchOp o e s
  | .lead => Sys2Proof.Machine.execLead s
  | .hdrm d => Sys2Proof.Machine.execHdrm d s
  | .sbit1 sp mk => Sys2Proof.Machine.execSbit1 sp mk s
  | .sbit0 sp mk => Sys2Proof.Machine.execSbit0 sp mk s
  | .hdr => Sys2Proof.Machine.execHdr s
  | .bit1 => Sys2Proof.Machine.execBit1 s
  | .bit0 => Sys2Proof.Machine.execBit0 s

end Sys2Proof.Machine
end

