-- ==== Sys2Proof/Machine/Engines.lean ====
section
/-! DEFINITION. One step of each agent (R7): which instruction it runs next, and where it takes it from. -/

namespace Sys2Proof.Machine

/-- Run a decoded symbol; an illegal one raises NoMatch (R105, R207). -/
def runSymbol (r : Except DecodeError Instr) (s : State) : Result :=
  match r with
  | .ok i => exec i s
  | .error _ => .next s.raiseNoMatch

/-- The D_HDR step: read RAW[1] and run it (R143). -/
def headerTurn (s : State) : Result :=
  match s.readRaw 1 with
  | .ok d => runSymbol (decodeHdrm s.cfg d) s
  | .error f => .fault f

/-- One pair of the D_BITS loop: the space is read and tested before the mark is read, each once (R145, R146, R209). -/
def pairTurn (s : State) : Result :=
  match s.readRaw s.ofs with
  | .error f => .fault f
  | .ok sp =>
    match decodeSpace s.cfg s.ofs sp with
    | .error _ => .next s.raiseNoMatch
    | .ok _ =>
      match s.readRaw (s.ofs + 1) with
      | .error f => .fault f
      | .ok mk => runSymbol (decodeMark s.cfg sp mk) s

/-- One step of the decoder engine (R140); an idle decoder does nothing. -/
def decoderTurn (s : State) : Result :=
  match s.dstate with
  | .idle => .next s
  | .skip => exec .lead s
  | .hdr => headerTurn s
  | .bits => if s.pairRemains then pairTurn s else .next s.loopExit
  | .fin => .next s.finalize

/-- The symbol the encoder emits next in E_BITS (R99, R183). -/
def State.emitted (s : State) : Instr := if s.nextBit then .bit1 else .bit0

/-- One step of the encoder engine (R179); an idle encoder does nothing. -/
def encoderTurn (s : State) : Result :=
  match s.estate with
  | .idle => .next s
  | .hdr => exec .hdr s
  | .bits => exec s.emitted s

end Sys2Proof.Machine
end

