-- ==== Sys2Proof/Machine/HostPort.lean ====
section
/-! DEFINITION. The host's side of the block (R7, R57, R108): its moves, and what each of its reads answers. -/

namespace Sys2Proof.Machine

/-- Flatten a pulse train: mark, space, mark, space, ... (R78). -/
def flattenPulses : List Pulse → List Nat
  | [] => []
  | q :: rest => q.mark :: q.space :: flattenPulses rest

/-- toCapture(g, T) (R78). -/
def toCapture (g : Nat) (t : List Pulse) : List Nat := g :: flattenPulses t

/-- toCaptureNoTail(g, T): the final space dropped (R78). R78 defines it for a train of at least one pair. Of the empty
train (OUT_LEN = 0) the last space is the gap itself, and the capture is empty (DESIGN CHOICE, notes/assumptions/25.md). -/
def toCaptureNoTail (g : Nat) (t : List Pulse) : List Nat := (toCapture g t).dropLast

/-- The free value of an unspecified read of width `w`; `tag` keeps the reads of one state apart. -/
def State.freeNum (s : State) (w tag : Nat) : Nat := trunc w (Config.freeRead tag s.draws)

/-- The free flag of an unspecified read. -/
def State.freeFlag (s : State) (tag : Nat) : Bool := decide (s.freeNum 1 tag = 1)

/-- `OUT[k]` as the host reads it: the pair, where it is valid (ENC_DONE = 1 and k < OUT_LEN: R46, R70, R246), elsewhere
free values (U9, U10; DESIGN CHOICE, notes/assumptions/13.md). -/
def State.seenOut (s : State) (k : Nat) : Pulse :=
  (if s.encDone && decide (k < s.outLen) then s.out.read k else none).getD
    ⟨s.freeNum s.cfg.durW (9 + 3 * k), s.freeNum s.cfg.durW (10 + 3 * k)⟩

/-- The most pairs that OUT has indices for and whose loop-back capture RAW has elements for. -/
def loopMax (p : Params) (tail : Bool) : Nat := min p.outCap ((if tail then p.rawCap - 1 else p.rawCap) / 2)

/-- How many pairs a LOOPBACK takes: OUT_LEN, where it is valid; while ENC_DONE = 0 a free number of those that both
buffers have room for (R246, U10; DESIGN CHOICE, notes/assumptions/26.md). -/
def State.loopLen (s : State) (tail : Bool) : Nat :=
  if s.encDone then s.outLen else s.freeNum s.cfg.cntW 5 % (loopMax s.cfg tail + 1)

/-- The pulse train a LOOPBACK takes: OUT[0 .. OUT_LEN - 1] as the host reads them (R108). -/
def State.loopTrain (s : State) (tail : Bool) : List Pulse := (List.range (s.loopLen tail)).map s.seenOut

/-- The capture of a train, with its last space or without (R78). -/
def captureOf (g : Nat) (tail : Bool) (t : List Pulse) : List Nat :=
  if tail then toCapture g t else toCaptureNoTail g t

/-- A write of RAW or RAW_LEN: not while DEC_BUSY, and only of what exists (R57, R73, R216; DESIGN CHOICE,
notes/assumptions/11.md). -/
def guardRaw (s : State) (legal : Bool) (t : State) : Result :=
  if s.decBusy then .refused .hostWriteWhileBusy
  else if legal then .next t
  else .refused .hostWriteOutside

/-- A write of ENC_VALUE or ENC_BITS: not while ENC_BUSY, and only of what exists (R57, R73, R216). -/
def guardEnc (s : State) (legal : Bool) (t : State) : Result :=
  if s.encBusy then .refused .hostWriteWhileBusy
  else if legal then .next t
  else .refused .hostWriteOutside

/-- LOADRAW (R108): RAW[0 ..] and RAW_LEN; elements beyond keep what they held. -/
def loadCapture (es : List Nat) (s : State) : Result :=
  guardRaw s (decide (es.length ≤ s.cfg.rawCap) && es.all (fits s.cfg.durW))
    { s with raw := s.raw.writeList 0 es, rawLen := es.length }

/-- LOOPBACK g (R78, R108): the host reads OUT and OUT_LEN and loads the capture. Before ENC_DONE = 1 what it reads is
unspecified (R246, U10): the capture is made of free values, and the count of draws moves on (DESIGN CHOICE,
notes/assumptions/26.md). -/
def loopBack (g : Nat) (tail : Bool) (s : State) : Result :=
  loadCapture (captureOf g tail (s.loopTrain tail)) (if s.encDone then s else { s with draws := s.draws + 1 })

/-- Run the command word the host wrote (R106). -/
def runCommand (w : Nat) (s : State) : Result :=
  match decodeCmd w with
  | .ok i => exec i s
  | .error _ => .refused .notACommandWord

/-- One move of the host, already taken from the head of its list. A wait whose flag is still 0 is put back
(DESIGN CHOICE, notes/assumptions/19.md). -/
def hostMove (m : HostMove) (s : State) : Result :=
  match m with
  | .cmd w => runCommand w s
  | .writeRaw i e =>
    guardRaw s (decide (i < s.cfg.rawCap) && fits s.cfg.durW e) { s with raw := s.raw.write i e }
  | .writeRawLen n => guardRaw s (decide (n ≤ s.cfg.rawCap)) { s with rawLen := n }
  | .loadRaw es => loadCapture es s
  | .writeEncValue v => guardEnc s (fits s.cfg.valW v) { s with encValue := v }
  | .writeEncBits n => guardEnc s (fits s.cfg.cntW n) { s with encBits := n }
  | .setEnc v n =>
    guardEnc s (fits s.cfg.valW v && fits s.cfg.cntW n) { s with encValue := v, encBits := n }
  | .loopback g tail => loopBack g tail s
  | .awaitDec => .next (if s.decDone then s else { s with moves := .awaitDec :: s.moves })
  | .awaitEnc => .next (if s.encDone then s else { s with moves := .awaitEnc :: s.moves })
  | .reset => .next s.applyReset

/-- One step of the host; a host with no further move does nothing (R256). -/
def hostTurn (s : State) : Result :=
  match s.moves with
  | [] => .next s
  | m :: rest => hostMove m { s with moves := rest }

/-- One step of an agent. -/
def turn (a : Agent) (s : State) : Result :=
  match a with
  | .host => hostTurn s
  | .decoder => decoderTurn s
  | .encoder => encoderTurn s

/-- Who moves when the schedule names nobody: a busy engine first, then the host (DESIGN CHOICE,
notes/assumptions/7.md). -/
def State.defaultAgent (s : State) : Agent :=
  if s.decBusy then .decoder else if s.encBusy then .encoder else .host

/-- What the host can read (R57). -/
inductive HostReg where
  | raw (i : Nat)
  | rawLen
  | decBusy
  | decDone
  | decMatch
  | decValue
  | decBits
  | encValue
  | encBits
  | encBusy
  | out (k : Nat)
  | outLen
  | encDone
  | encErr
  | txKhz
  deriving DecidableEq, Repr

/-- What a read answers. -/
inductive HostValue where
  | flag (b : Bool)
  | num (n : Nat)
  | pair (q : Pulse)
  deriving DecidableEq, Repr

/-- A host read (R57): it changes nothing (R69). `none` is an index that does not exist (R56). A result register is
valid only after its done flag, DEC_VALUE and DEC_BITS only on Match, OUT only below OUT_LEN (R40, R41, R46, R208,
R246): elsewhere the answer is a free value (U6, U7, U9, U10; DESIGN CHOICE, notes/assumptions/13.md). -/
def hostRead (r : HostReg) (s : State) : Option HostValue :=
  match r with
  | .raw i =>
    if i < s.cfg.rawCap then some (.num ((s.raw.read i).getD (s.freeNum s.cfg.durW (8 + 3 * i)))) else none
  | .rawLen => some (.num s.rawLen)
  | .decBusy => some (.flag s.decBusy)
  | .decDone => some (.flag s.decDone)
  | .decMatch => some (.flag (if s.decDone then s.decMatch else s.freeFlag 0))
  | .decValue => some (.num (if s.decDone && s.decMatch then s.decValue else s.freeNum s.cfg.valW 1))
  | .decBits => some (.num (if s.decDone && s.decMatch then s.decBits else s.freeNum s.cfg.cntW 2))
  | .encValue => some (.num s.encValue)
  | .encBits => some (.num s.encBits)
  | .encBusy => some (.flag s.encBusy)
  | .out k =>
    if k < s.cfg.outCap then some (.pair (s.seenOut k)) else none
  | .outLen => some (.num (if s.encDone then s.outLen else s.freeNum s.cfg.cntW 3))
  | .encDone => some (.flag s.encDone)
  | .encErr => some (.flag (if s.encDone then s.encErr else s.freeFlag 4))
  | .txKhz => some (.num s.txKhz)

end Sys2Proof.Machine
end

