-- ==== Sys2Proof/Machine/Step.lean ====
section
/-! DEFINITION. One step of the machine: the next agent takes its turn. -/

namespace Sys2Proof.Machine

/-- An instance that is not well formed has no meaning (R10). Otherwise the agent at the head of the schedule moves,
or, when the schedule is empty, the default agent. -/
def step (s : State) : Host.Outcome State Fault Refusal :=
  if s.cfg.wf then
    match s.sched with
    | a :: rest => turn a { s with sched := rest }
    | [] => turn s.defaultAgent s
  else .refused .illFormedConfig

/-- The host writes the command word `w` next: it stands at the head of the host's moves, and the host moves first
(DESIGN CHOICE, notes/assumptions/8.md). -/
def State.withFetchWord (s : State) (nbits w : Nat) : State :=
  { s with moves := .cmd (w % 2 ^ nbits) :: s.moves, sched := .host :: s.sched }

end Sys2Proof.Machine
end

