-- ==== Sys2Proof/Machine/Frames.lean ====
section
/-! DEFINITION. The two operations as functions of their operands, as the spec states them beside the step rules:
DECODE (R152) and ENCODE (R187). The machine does not use them: its steps govern. Statements compare the two. -/

namespace Sys2Proof

/-- The loop of R152 on the elements from index `i` on: the accumulator and the index reached, or no match. -/
def Params.decodePairs (p : Params) (i data : Nat) : List Nat → Option (Nat × Nat)
  | sp :: m :: rest =>
    if p.matches sp (p.expectedSpace i) then
      match p.bitOfMark m with
      | some b => Params.decodePairs p (i + 2) (trunc p.valW (2 * data + b.toNat)) rest
      | none => none
    else none
  | _ => some (data, i)

/-- The length check of R150, on the count `n`. -/
def Params.lengthOk (p : Params) (n : Nat) : Bool :=
  decide (p.lenCheck = .lenient) || (decide (p.minBits ≤ n) && decide (n ≤ p.maxBits))

/-- `decode(RAW, RAW_LEN)` (R152): `some (value, bitCount)` is Match, `none` is NoMatch. -/
def Params.decodeFrame (p : Params) (raw : List Nat) : Option (Nat × Nat) :=
  match raw with
  | _ :: h :: rest =>
    if p.matches h p.hdrMarkUs then
      match p.decodePairs 2 0 rest with
      | some (v, ofs) => if p.lengthOk ((ofs - 1) / 2) then some (v, (ofs - 1) / 2) else none
      | none => none
    else none
  | _ => none

/-- The number whose bits, most significant first, are `bs` (R100). -/
def bitsValue (bs : List Bool) : Nat := bs.foldl (fun d b => 2 * d + b.toNat) 0

/-- (space, mark) pairs in the order the decoder reads them (R90: RXPAIR). -/
def spaceMarkElems : List Pulse → List Nat
  | [] => []
  | q :: rest => q.space :: q.mark :: spaceMarkElems rest

/-- The data pairs of bits `n - 1` down to 0 of `v` (R187). -/
def Params.encodeBits (p : Params) (v : Nat) : Nat → List Pulse
  | 0 => []
  | n + 1 => p.bitPair (bitAt v n) :: Params.encodeBits p v n

/-- `encode(v, n)` (R187): `none` is the refusal EncPrecondition. -/
def Params.encodeFrame (p : Params) (v n : Nat) : Option (List Pulse) :=
  if 1 ≤ n ∧ n ≤ p.valW then some (p.hdrPair :: p.encodeBits v n) else none

end Sys2Proof
end

