-- ==== Sys2Proof/Safety.lean ====
section
/-! DEFINITION. The terms in which claims speak of runs: the invariant of the machine, the premises of a launch (R244),
what the two buffers hold, the end of a run (R256), and which fields belong to which side. -/

namespace Sys2Proof.Machine

/-- The invariant: the configuration is well formed, the buffers are in canonical form and in range, every register is
inside its width, and each engine's registers are where its state says they are (R36, R42, R45, R46). -/
structure State.Inv (s : State) : Prop where
  cfgWf : s.cfg.wf = true
  rawWf : s.raw.wf = true
  rawIn : ∀ c ∈ s.raw, c.1 < s.cfg.rawCap ∧ c.2 < 2 ^ s.cfg.durW
  rawLenIn : s.rawLen ≤ s.cfg.rawCap
  outWf : s.out.wf = true
  outIn : ∀ c ∈ s.out, c.1 < s.cfg.outCap ∧ c.2.mark < 2 ^ s.cfg.durW ∧ c.2.space < 2 ^ s.cfg.durW
  outLenIn : s.outLen ≤ s.cfg.outCap
  ofsFits : s.ofs < 2 ^ s.cfg.idxW
  dataFits : s.data < 2 ^ s.cfg.valW
  decValueFits : s.decValue < 2 ^ s.cfg.valW
  decBitsFits : s.decBits < 2 ^ s.cfg.cntW
  encValueFits : s.encValue < 2 ^ s.cfg.valW
  encBitsFits : s.encBits < 2 ^ s.cfg.cntW
  bitIdxFits : s.bitIdx < 2 ^ s.cfg.cntW
  hdrPlace : s.dstate = .hdr → s.ofs = 1 ∧ 2 ≤ s.rawLen
  pairPlace : s.dstate = .bits ∨ s.dstate = .fin → s.ofs % 2 = 0 ∧ 2 ≤ s.ofs ∧ s.ofs ≤ s.rawLen
  finPlace : s.dstate = .fin → s.rawLen < s.ofs + 2
  decBusyNotDone : s.dstate ≠ .idle → s.decDone = false
  emitPlace : s.estate = .bits → s.bitIdx < s.encBits ∧ s.encBits ≤ s.cfg.valW
  emittedSoFar : s.estate = .bits → ∀ k < s.encBits - s.bitIdx, (s.out.read k).isSome = true
  encBusyNotDone : s.estate ≠ .idle → s.encDone = false
  trainWritten : s.encDone = true → ∀ k < s.outLen, (s.out.read k).isSome = true

/-- RAW and RAW_LEN hold the capture `es`: the host has written every element below RAW_LEN (R244). -/
def State.HoldsCapture (s : State) (es : List Nat) : Prop :=
  s.rawLen = es.length ∧ ∀ i < es.length, s.raw.read i = es[i]?

/-- OUT and OUT_LEN hold the pulse train `t` (R70). -/
def State.HoldsTrain (s : State) (t : List Pulse) : Prop :=
  s.outLen = t.length ∧ ∀ k < t.length, s.out.read k = t[k]?

/-- A finished DECODE reports `r`: Match with its value and count, or NoMatch (R151, R207). -/
def State.Reports (s : State) (r : Option (Nat × Nat)) : Prop :=
  s.dstate = .idle ∧ s.decDone = true ∧
    match r with
    | some (v, n) => s.decMatch = true ∧ s.decValue = v ∧ s.decBits = n
    | none => s.decMatch = false

/-- The end of a run (R256). -/
def State.Quiescent (s : State) : Prop := s.dstate = .idle ∧ s.estate = .idle ∧ s.moves = []

/-- `t` is `s` but for the registers the decoder engine writes (R57) and the count of free values drawn. -/
def SameOutsideDecoder (s t : State) : Prop :=
  t = { s with ofs := t.ofs, data := t.data, dstate := t.dstate, decDone := t.decDone, decMatch := t.decMatch,
               decValue := t.decValue, decBits := t.decBits, draws := t.draws }

/-- `t` is `s` but for the registers the encoder engine writes (R57). -/
def SameOutsideEncoder (s t : State) : Prop :=
  t = { s with estate := t.estate, bitIdx := t.bitIdx, out := t.out, outLen := t.outLen, encDone := t.encDone,
               encErr := t.encErr }

/-- Every element of RAW below RAW_LEN has been written (R244). -/
def State.CaptureWritten (s : State) : Prop := ∀ i < s.rawLen, (s.raw.read i).isSome = true

end Sys2Proof.Machine
end

