-- ==== Sys2Proof/Certificates/Slice0/Obligations.lean ====
section
/-! DEFINITION. The statements for the provers. -/

open Sys2Proof Sys2Proof.Machine

/-! ## Encoding -/

/-- The command words of the table (R106, D17) and one code of every symbol, under REF. Three things are the model's
choice: the word container, in which a number above 3 is no command word (notes/assumptions/14.md), the reading of a TX
pair, and the code of a call of MATCH, which has no encoding in the spec (notes/assumptions/23.md). -/
def Obligations.TableWordsDecodeAsWritten : Prop :=
  decodeTableWord 8 0b00 = some .nop ∧ decodeTableWord 8 0b01 = some (.decode false) ∧
  decodeTableWord 8 0b10 = some .encode ∧ decodeTableWord 8 0b11 = some (.decode true) ∧
  decodeTableWord 8 0b100 = none ∧
  decodeCode .ref 0 (.rx [50000]) = .ok .lead ∧ decodeCode .ref 1 (.rx [2400]) = .ok (.hdrm 2400) ∧
  decodeCode .ref 2 (.rx [600, 1200]) = .ok (.sbit1 600 1200) ∧
  decodeCode .ref 4 (.rx [600, 600]) = .ok (.sbit0 600 600) ∧
  decodeCode .ref 0 (.tx ⟨2400, 600⟩) = .ok .hdr ∧ decodeCode .ref 1 (.tx ⟨1200, 600⟩) = .ok .bit1 ∧
  decodeCode .ref 2 (.tx ⟨600, 600⟩) = .ok .bit0 ∧ decodeCode .ref 0 (.func 450 600) = .ok (.matchOp 450 600)

/-- Every instruction of the table survives encoding and decoding, with every operand it admits. -/
def Obligations.DecodeOfEncodeIsIdentity : Prop :=
  ∀ (p : Params) (pos : Nat) (i : Instr), p.wf = true → i.wf p pos = true →
    decodeCode p pos (encode p i) = .ok i

/-- Every code that decodes has one meaning: the instruction is well formed where it stands, and is encoded by that very
code; only LEAD, whose element may hold anything, forgets its element. -/
def Obligations.DecodedCodeHasOneMeaning : Prop :=
  ∀ (p : Params) (pos : Nat) (c : Code) (i : Instr), p.wf = true → c.fitsIn p = true →
    decodeCode p pos c = .ok i →
      i.wf p pos = true ∧ (encode p i = c ∨ i = .lead ∧ pos = 0 ∧ ∃ d, c = .rx [d])

/-- What the decoder recognises at each position of RAW (R93 to R98, R105): every other code there is rejected. -/
def Obligations.ReceivedSymbolsAreSelectedByPosition : Prop :=
  ∀ (p : Params),
    (∀ d, decodeRx p 0 [d] = .ok .lead) ∧
    (∀ d, if p.matches d p.hdrMarkUs then decodeRx p 1 [d] = .ok (.hdrm d) else ∃ e, decodeRx p 1 [d] = .error e) ∧
    (∀ i sp m, p.pairPos i = true →
      if p.matches sp (if i = 2 then p.hdrSpaceUs else p.interSpaceUs) then
        if p.matches m p.oneMarkUs then decodeRx p i [sp, m] = .ok (.sbit1 sp m)
        else if p.matches m p.zeroMarkUs then decodeRx p i [sp, m] = .ok (.sbit0 sp m)
        else ∃ e, decodeRx p i [sp, m] = .error e
      else ∃ e, decodeRx p i [sp, m] = .error e) ∧
    (∀ i sp m, p.pairPos i = false → ∃ e, decodeRx p i [sp, m] = .error e) ∧
    (∀ i d, 2 ≤ i → ∃ e, decodeRx p i [d] = .error e)

/-! ## The matcher -/

/-- R121: the inclusive band around the expected duration, over the integers, whatever the sign of its lower end. -/
def Obligations.MatcherAcceptsExactlyTheBand : Prop :=
  (∀ (p : Params) (o e : Nat),
    p.matches o e = true ↔ (e : Int) - (p.tol e : Int) ≤ (o : Int) ∧ (o : Int) ≤ (e : Int) + (p.tol e : Int)) ∧
  (∀ (p : Params) (o e : Nat) (s : State), s.cfg = p →
    ∃ t, exec (.matchOp o e) s = .next t ∧ t = { s with matchOut := t.matchOut }) ∧
  Params.ref.matches 450 600 = true ∧ Params.ref.matches 449 600 = false ∧
  Params.ref.matches 750 600 = true ∧ Params.ref.matches 751 600 = false ∧ Params.ref.tol 600 = 150

/-- R120 with the rounding of D7: the tolerance is the least number not below the whole percentage and the floor. -/
def Obligations.ToleranceIsTheLargerOfPercentageAndFloor : Prop :=
  ∀ (p : Params) (e : Nat) (n : Nat),
    p.tol e ≤ n ↔ (e * p.tolPct < 100 * (n + 1) ∧ p.tolFloorUs ≤ n)

/-- R125 (f): enlarging the percentage or the floor never rejects what was accepted, and what is accepted around a fixed
expected duration is an interval. -/
def Obligations.MatcherIsMonotoneAndConvex : Prop :=
  (∀ (p q : Params) (o e : Nat), p.tolPct ≤ q.tolPct → p.tolFloorUs ≤ q.tolFloorUs →
    p.matches o e = true → q.matches o e = true) ∧
  (∀ (p : Params) (a b c e : Nat), a ≤ b → b ≤ c → p.matches a e = true → p.matches c e = true →
    p.matches b e = true) ∧
  (∀ (p : Params) (o e : Nat), p.tolPct = 0 → p.tolFloorUs = 0 → (p.matches o e = true ↔ o = e))

/-- MATCH evaluated by itself answers with its one bit, and changes no register of the spec. The field `matchOut` that
carries the bit is the model's own (notes/assumptions/6.md). -/
def Obligations.MatchInstructionGivesItsBit : Prop :=
  ∀ (o e : Nat) (s : State),
    ∃ b, exec (.matchOp o e) s = .next { s with matchOut := b } ∧
      (b = true ↔ (e : Int) - (max (e * s.cfg.tolPct / 100) s.cfg.tolFloorUs : Nat) ≤ (o : Int) ∧
        (o : Int) ≤ (e : Int) + (max (e * s.cfg.tolPct / 100) s.cfg.tolFloorUs : Nat))

/-! ## The command words -/

/-- NOP changes nothing; DECODE and ENCODE start an idle engine and are dropped by a busy one (R106, R141, R180). -/
def Obligations.CommandsStartIdleEnginesOnly : Prop :=
  ∀ s : State,
    exec .nop s = .next s ∧
    (s.dstate = .idle → exec (.decode false) s = .next { s with decDone := false, dstate := .skip }) ∧
    (s.dstate ≠ .idle → exec (.decode false) s = .next s) ∧
    (s.estate = .idle → exec .encode s = .next { s with encDone := false, estate := .hdr }) ∧
    (s.estate ≠ .idle → exec .encode s = .next s)

/-- The word 0b11 does what the two single words do, in either order (R106, R217). -/
def Obligations.BothStartBitsActIndependently : Prop :=
  ∀ s : State, ∃ a b t, exec (.decode false) s = .next a ∧ exec .encode a = .next t ∧
    exec .encode s = .next b ∧ exec (.decode false) b = .next t ∧ exec (.decode true) s = .next t ∧
    t.dstate ≠ .idle ∧ t.estate ≠ .idle ∧
    t = { s with decDone := t.decDone, dstate := t.dstate, encDone := t.encDone, estate := t.estate }

/-! ## The decoder's steps -/

/-- LEAD: the first element is passed over without being read, whatever RAW holds (R142). That a capture of fewer than
two elements gives NoMatch is the spec's decision D6. -/
def Obligations.LeadPassesOverTheFirstElement : Prop :=
  ∀ s : State, s.dstate = .skip →
    (2 ≤ s.rawLen → exec .lead s = .next { s with ofs := 1, dstate := .hdr }) ∧
    (s.rawLen < 2 → exec .lead s = .next s.raiseNoMatch)

/-- A header mark in its band is the symbol HDRM: the decoder's turn runs it, and it is accepted (R95, R143). That DATA
starts at 0 is the spec's decision D11. -/
def Obligations.HeaderMarkInItsBandIsAccepted : Prop :=
  ∀ (s : State) (d : Nat), s.dstate = .hdr → s.cfg.matches d s.cfg.hdrMarkUs = true →
    exec (.hdrm d) s = .next { s with ofs := 2, data := 0, dstate := .bits } ∧
    (s.readRaw 1 = .ok d → decodeRx s.cfg 1 [d] = .ok (.hdrm d) ∧ decoderTurn s = exec (.hdrm d) s)

/-- R201: any other duration at index 1 raises NoMatch; neither the duration nor the index is recorded. -/
def Obligations.HeaderMarkMismatchRaisesNoMatch : Prop :=
  ∀ (s : State) (d : Nat), s.dstate = .hdr → s.cfg.matches d s.cfg.hdrMarkUs = false →
    exec (.hdrm d) s = .next s.raiseNoMatch ∧
    (s.readRaw 1 = .ok d → (∃ e, decodeRx s.cfg 1 [d] = .error e) ∧ decoderTurn s = .next s.raiseNoMatch)

/-- A pair that SBIT1 or SBIT0 selects shifts its bit into DATA, most significant first, and advances OFS by two. That
the bit shifted out of VAL_W is lost is the spec's decision D12. -/
def Obligations.SelectedPairShiftsInItsBit : Prop :=
  ∀ (s : State) (sp m : Nat), s.dstate = .bits → s.ofs + 2 ≤ s.rawLen →
    s.cfg.matches sp (if s.ofs = 2 then s.cfg.hdrSpaceUs else s.cfg.interSpaceUs) = true →
    (s.cfg.matches m s.cfg.oneMarkUs = true →
      exec (.sbit1 sp m) s = .next { s with data := (2 * s.data + 1) % 2 ^ s.cfg.valW, ofs := s.ofs + 2 }) ∧
    (s.cfg.matches m s.cfg.oneMarkUs = false → s.cfg.matches m s.cfg.zeroMarkUs = true →
      exec (.sbit0 sp m) s = .next { s with data := (2 * s.data) % 2 ^ s.cfg.valW, ofs := s.ofs + 2 })

/-- R147, R203: once its space has passed, the mark's width alone decides: the one mark first, then the zero mark, and
any other width raises NoMatch and records nothing. The turn does not depend on which accepted space stood there. -/
def Obligations.MarkWidthAloneDecidesTheBit : Prop :=
  ∀ (s : State) (sp m : Nat), s.dstate = .bits → s.ofs + 2 ≤ s.rawLen →
    s.readRaw s.ofs = .ok sp → s.readRaw (s.ofs + 1) = .ok m →
    s.cfg.matches sp (if s.ofs = 2 then s.cfg.hdrSpaceUs else s.cfg.interSpaceUs) = true →
      decoderTurn s =
        if s.cfg.matches m s.cfg.oneMarkUs then .next (s.acceptBit true)
        else if s.cfg.matches m s.cfg.zeroMarkUs then .next (s.acceptBit false)
        else .next s.raiseNoMatch

/-- R202: a space that a mark follows and that does not match ends the DECODE with NoMatch, before the mark is read: the
mark need not even have been written. Nothing is recorded. -/
def Obligations.SpaceMismatchRaisesNoMatchBeforeTheMark : Prop :=
  ∀ (s : State) (sp : Nat), s.dstate = .bits → s.ofs + 2 ≤ s.rawLen → s.readRaw s.ofs = .ok sp →
    s.cfg.matches sp (if s.ofs = 2 then s.cfg.hdrSpaceUs else s.cfg.interSpaceUs) = false →
      decoderTurn s = .next s.raiseNoMatch

/-- The loop ends when fewer than two elements remain; the element left over is neither read nor checked (R144). -/
def Obligations.LeftOverElementIsNeverRead : Prop :=
  ∀ (s : State) (m : Memory Nat), s.dstate = .bits → s.rawLen < s.ofs + 2 →
    decoderTurn { s with raw := m } = .next { s with raw := m, dstate := .fin }

/-- The final step: bit count from the position, length check in Strict mode only, result (R149 to R151). What OFS and
DATA hold afterwards is free (R208). -/
def Obligations.FinalStepReportsMatchOrLength : Prop :=
  ∀ s : State, s.dstate = .fin →
    if s.cfg.lenCheck = .strict ∧ ((s.ofs - 1) / 2 < s.cfg.minBits ∨ s.cfg.maxBits < (s.ofs - 1) / 2) then
      decoderTurn s = .next s.raiseNoMatch
    else ∃ t, decoderTurn s = .next t ∧
      t = { s with decValue := s.data, decBits := (s.ofs - 1) / 2, decMatch := true, decDone := true, dstate := .idle,
                   ofs := t.ofs, data := t.data, draws := t.draws }

/-- R207: NoMatch sets DEC_MATCH to 0 and DEC_DONE to 1 and idles the decoder, wherever it is raised, and reaches nothing
outside the decoder's own registers. What DEC_VALUE, DEC_BITS, OFS and DATA hold afterwards is free (R208). -/
def Obligations.NoMatchHasItsOneEffect : Prop :=
  ∀ s t : State, t = s.raiseNoMatch →
    t.decMatch = false ∧ t.decDone = true ∧ t.dstate = .idle ∧ SameOutsideDecoder s t ∧
    t.raw = s.raw ∧ t.rawLen = s.rawLen ∧ t.cfg = s.cfg

/-- A busy decoder's turn ends the DECODE without a Match exactly on the causes of R200 that lie in DECODE, in the order
of R211. -/
def Obligations.NoMatchComesExactlyFromItsCauses : Prop :=
  ∀ s t : State, s.dstate ≠ .idle → decoderTurn s = .next t →
    ((t.dstate = .idle ∧ t.decMatch = false) ↔
      (s.dstate = .skip ∧ s.rawLen < 2) ∨
      (s.dstate = .hdr ∧ ∃ d, s.readRaw 1 = .ok d ∧ s.cfg.matches d s.cfg.hdrMarkUs = false) ∨
      (s.dstate = .bits ∧ s.ofs + 2 ≤ s.rawLen ∧ ∃ sp, s.readRaw s.ofs = .ok sp ∧
        (s.cfg.matches sp s.spaceHere = false ∨
          ∃ m, s.readRaw (s.ofs + 1) = .ok m ∧ s.cfg.matches m s.cfg.oneMarkUs = false ∧
            s.cfg.matches m s.cfg.zeroMarkUs = false)) ∨
      (s.dstate = .fin ∧ s.cfg.lengthOk ((s.ofs - 1) / 2) = false))

/-- R153: the only transfers between the values of DSTATE, each with its condition, and how OFS moves with them. -/
def Obligations.DecoderTransfersAreTheTabledOnes : Prop :=
  (∀ s : State, s.dstate = .idle → ∃ t, exec (.decode false) s = .next t ∧ t.dstate = .skip) ∧
  ∀ s t : State, decoderTurn s = .next t →
    (s.dstate = .idle ∧ t = s) ∨
    (s.dstate = .skip ∧ t.dstate = .hdr ∧ 2 ≤ s.rawLen ∧ t.ofs = 1) ∨
    (s.dstate = .skip ∧ t = s.raiseNoMatch ∧ s.rawLen < 2) ∨
    (s.dstate = .hdr ∧ t.dstate = .bits ∧ t.ofs = 2 ∧
      ∃ d, s.readRaw 1 = .ok d ∧ s.cfg.matches d s.cfg.hdrMarkUs = true) ∨
    (s.dstate = .hdr ∧ t = s.raiseNoMatch ∧
      ∃ d, s.readRaw 1 = .ok d ∧ s.cfg.matches d s.cfg.hdrMarkUs = false) ∨
    (s.dstate = .bits ∧ t.dstate = .bits ∧ s.ofs + 2 ≤ s.rawLen ∧ t.ofs = s.ofs + 2 ∧
      ∃ sp m, s.readRaw s.ofs = .ok sp ∧ s.readRaw (s.ofs + 1) = .ok m ∧ s.cfg.matches sp s.spaceHere = true ∧
        (s.cfg.matches m s.cfg.oneMarkUs = true ∨ s.cfg.matches m s.cfg.zeroMarkUs = true)) ∨
    (s.dstate = .bits ∧ t = s.raiseNoMatch ∧ s.ofs + 2 ≤ s.rawLen ∧
      ∃ sp, s.readRaw s.ofs = .ok sp ∧ (s.cfg.matches sp s.spaceHere = false ∨
        ∃ m, s.readRaw (s.ofs + 1) = .ok m ∧
          s.cfg.matches m s.cfg.oneMarkUs = false ∧ s.cfg.matches m s.cfg.zeroMarkUs = false)) ∨
    (s.dstate = .bits ∧ t.dstate = .fin ∧ s.rawLen < s.ofs + 2 ∧ t.ofs = s.ofs) ∨
    (s.dstate = .fin ∧ t.dstate = .idle ∧ t.decMatch = true ∧
      (s.cfg.lenCheck = .lenient ∨ (s.cfg.minBits ≤ (s.ofs - 1) / 2 ∧ (s.ofs - 1) / 2 ≤ s.cfg.maxBits))) ∨
    (s.dstate = .fin ∧ t = s.raiseNoMatch ∧ s.cfg.lenCheck = .strict ∧
      ((s.ofs - 1) / 2 < s.cfg.minBits ∨ s.cfg.maxBits < (s.ofs - 1) / 2))

/-- OFS takes the values 1, 2, 4, 6, ... and never passes RAW_LEN (R36). -/
def Obligations.OffsetOnlyMovesForward : Prop :=
  ∀ s t : State, s.Inv → s.dstate ≠ .idle → decoderTurn s = .next t → t.dstate ≠ .idle →
    t.ofs ≤ t.rawLen ∧ t.rawLen = s.rawLen ∧
    ((s.dstate = .skip ∧ t.ofs = 1) ∨ (s.ofs = 1 ∧ t.ofs = 2) ∨
      (s.ofs % 2 = 0 ∧ (t.ofs = s.ofs + 2 ∨ (t.ofs = s.ofs ∧ t.dstate = .fin))))

/-- The frame of every symbol the decoder reads, and of every decoder turn: RAW, RAW_LEN, the configuration, the whole
encoder side and OUT are unchanged (R57, R65, R209). -/
def Obligations.DecoderTouchesOnlyItsOwnRegisters : Prop :=
  ∀ s t : State,
    (decoderTurn s = .next t → SameOutsideDecoder s t) ∧
    (∀ i : Instr, (i = .lead ∨ (∃ d, i = .hdrm d) ∨ (∃ sp m, i = .sbit1 sp m) ∨ ∃ sp m, i = .sbit0 sp m) →
      exec i s = .next t → SameOutsideDecoder s t)

/-- On a capture that has been written, no decoder step stops: the block has no access fault (R68, R154, R200). -/
def Obligations.DecoderNeverStopsOnAWrittenCapture : Prop :=
  ∀ s : State, s.Inv → s.CaptureWritten → ∃ t, decoderTurn s = .next t

/-- R63: the element at index 0 is never read: replacing it by any duration changes no decoder turn but for that
element. -/
def Obligations.LeadingElementIsNeverRead : Prop :=
  ∀ (s t : State) (g : Nat), s.Inv → decoderTurn s = .next t →
    decoderTurn { s with raw := s.raw.write 0 g } = .next { t with raw := t.raw.write 0 g }

/-- Under any interleaving of the two engines, a started DECODE over a written capture ends within
4 + (RAW_LEN - 2) div 2 of its own steps with what the function of R152 gives (R152, R154, R217). -/
def Obligations.DecodeComputesTheFrameFunction : Prop :=
  ∀ (s : State) (es : List Nat), s.Inv → s.dstate = .skip → s.HoldsCapture es →
    (∀ a ∈ s.sched, a ≠ Agent.host) → 4 + (s.rawLen - 2) / 2 ≤ s.sched.count .decoder →
      ∃ t, Sys2Proof.core.run s.sched.length s = .next t ∧ State.Reports t (s.cfg.decodeFrame es) ∧
        t.raw = s.raw ∧ t.rawLen = s.rawLen ∧ t.cfg = s.cfg

/-- Nothing carries over from one DECODE into the next: two instances with the same configuration and the same capture
report the same, whatever their other registers hold and however their engines interleave (R54, R65, R214). -/
def Obligations.DecodeDependsOnCaptureAndConfigurationOnly : Prop :=
  ∀ (s s' t t' : State) (es : List Nat), s.Inv → s'.Inv → s.cfg = s'.cfg →
    s.dstate = .skip → s'.dstate = .skip → s.HoldsCapture es → s'.HoldsCapture es →
    (∀ a ∈ s.sched, a ≠ Agent.host) → (∀ a ∈ s'.sched, a ≠ Agent.host) →
    4 + (s.rawLen - 2) / 2 ≤ s.sched.count .decoder → 4 + (s'.rawLen - 2) / 2 ≤ s'.sched.count .decoder →
    Sys2Proof.core.run s.sched.length s = .next t → Sys2Proof.core.run s'.sched.length s' = .next t' →
      t.decDone = true ∧ t'.decDone = true ∧ t.decMatch = t'.decMatch ∧
      (t.decMatch = true → t.decValue = t'.decValue ∧ t.decBits = t'.decBits)

/-! ## The frame functions -/

/-- Every capture whose durations lie in their bands decodes to the bits its marks carry, first bit most significant,
jitter or not; beyond VAL_W bits the oldest are lost (R100, R103; the last clause is D12). -/
def Obligations.ToleratedFrameDecodesToItsBits : Prop :=
  ∀ (p : Params) (g h : Nat) (ps : List Pulse) (bs : List Bool),
    p.matches h p.hdrMarkUs = true → ps.length = bs.length →
    (∀ k q, ps[k]? = some q →
      p.matches q.space (if k = 0 then p.hdrSpaceUs else p.interSpaceUs) = true ∧ p.bitOfMark q.mark = bs[k]?) →
    p.lengthOk bs.length = true →
      p.decodeFrame (g :: h :: spaceMarkElems ps) = some (bitsValue bs % 2 ^ p.valW, bs.length)

/-- A capture that ends on a space decodes as the capture without it, whatever that space is (R103, R155). -/
def Obligations.TrailingSpaceIsIgnored : Prop :=
  ∀ (p : Params) (es : List Nat) (x : Nat), 2 ≤ es.length → es.length % 2 = 0 →
    p.decodeFrame (es ++ [x]) = p.decodeFrame es

/-- A capture cut after its j-th mark decodes to the first j bits (R155 (d), Lenient). -/
def Obligations.TruncatedFrameYieldsItsFirstBits : Prop :=
  ∀ (p : Params) (es : List Nat) (v n j : Nat), p.lenCheck = .lenient → n ≤ p.valW →
    es.length = 2 * n + 2 → j ≤ n → p.decodeFrame es = some (v, n) →
      p.decodeFrame (es.take (2 * j + 2)) = some (v / 2 ^ (n - j), j)

/-- The layout of an encoded frame: header pair first, then bit n - 1 - k in pair 1 + k, no terminator (R67, R70, R91). -/
def Obligations.EncodedFrameHasTheTabledLayout : Prop :=
  ∀ (p : Params) (v n : Nat) (t : List Pulse), p.encodeFrame v n = some t →
    t.length = n + 1 ∧ t[0]? = some ⟨p.hdrMarkUs, p.hdrSpaceUs⟩ ∧
    ∀ k < n, t[1 + k]? =
      some (if v.testBit (n - 1 - k) then ⟨p.oneMarkUs, p.interSpaceUs⟩ else ⟨p.zeroMarkUs, p.interSpaceUs⟩)

/-- Bits of the value at or above the count are not part of the frame (R186). -/
def Obligations.HighValueBitsAreIgnored : Prop :=
  ∀ (p : Params) (v w n : Nat), v % 2 ^ n = w % 2 ^ n → p.encodeFrame v n = p.encodeFrame w n

/-- Round trip without jitter (R156 (b)): for every well-formed configuration, every count within the width and every
gap, with or without the trailing space. -/
def Obligations.RoundTripWithoutJitter : Prop :=
  ∀ (p : Params) (v n : Nat) (t : List Pulse) (g : Nat), p.wf = true → p.encodeFrame v n = some t →
    p.lengthOk n = true →
      p.decodeFrame (toCapture g t) = some (v % 2 ^ n, n) ∧
      p.decodeFrame (toCaptureNoTail g t) = some (v % 2 ^ n, n)

/-- The two loop-back captures of any pulse train decode alike, whatever the gaps (R78). -/
def Obligations.BothLoopBackCapturesDecodeAlike : Prop :=
  ∀ (p : Params) (t : List Pulse) (g g' : Nat),
    t ≠ [] → p.decodeFrame (toCapture g t) = p.decodeFrame (toCaptureNoTail g' t)

/-! ## The encoder's steps -/

/-- R182: the header pair is always the first pair, for every value and every count within the precondition. -/
def Obligations.HeaderPairIsEmittedFirst : Prop :=
  ∀ s : State, s.estate = .hdr → 1 ≤ s.encBits → s.encBits ≤ s.cfg.valW →
    ∃ t, exec .hdr s = .next t ∧ t = { s with out := t.out, bitIdx := s.encBits - 1, estate := .bits } ∧
      t.out.read 0 = some ⟨s.cfg.hdrMarkUs, s.cfg.hdrSpaceUs⟩ ∧ ∀ k, k ≠ 0 → t.out.read k = s.out.read k

/-- A count outside 1 to VAL_W is refused: nothing is emitted, ENC_ERR is set (R204; the check itself is D15). -/
def Obligations.EncoderRefusesBadCounts : Prop :=
  ∀ s : State, s.estate = .hdr → (s.encBits < 1 ∨ s.cfg.valW < s.encBits) →
    exec .hdr s = .next { s with outLen := 0, encErr := true, encDone := true, estate := .idle }

/-- R183, R184: one data bit. The pair of ENC_VALUE[BITIDX] goes to OUT[1 + k] with k = ENC_BITS - 1 - BITIDX and to no
other entry; then BITIDX counts down, or after the last bit OUT_LEN is ENC_BITS + 1, with no terminator. -/
def Obligations.EachDataBitEmitsItsPair : Prop :=
  ∀ s : State, s.estate = .bits → s.bitIdx < s.encBits → s.encBits ≤ s.cfg.valW →
    ∃ t, exec (if s.encValue.testBit s.bitIdx then .bit1 else .bit0) s = .next t ∧
      t.out.read (1 + (s.encBits - 1 - s.bitIdx)) =
        some (if s.encValue.testBit s.bitIdx then ⟨s.cfg.oneMarkUs, s.cfg.interSpaceUs⟩
              else ⟨s.cfg.zeroMarkUs, s.cfg.interSpaceUs⟩) ∧
      (∀ k, k ≠ 1 + (s.encBits - 1 - s.bitIdx) → t.out.read k = s.out.read k) ∧
      (0 < s.bitIdx → t = { s with out := t.out, bitIdx := s.bitIdx - 1 }) ∧
      (s.bitIdx = 0 → t.outLen = s.encBits + 1 ∧ t.outLen ≤ s.cfg.outCap)

/-- After the last bit the ENCODE is complete: OUT_LEN, ENC_ERR, ENC_DONE and ESTATE, and nothing else but the pair just
emitted (R184, R185; the handshake is D18). -/
def Obligations.LastBitCompletesTheEncode : Prop :=
  ∀ s t : State, s.estate = .bits → s.bitIdx = 0 → encoderTurn s = .next t →
    t = { s with out := t.out, outLen := s.encBits + 1, encErr := false, encDone := true, estate := .idle } ∧
    ∀ k, k ≠ s.nextIndex → t.out.read k = s.out.read k

/-- The frame of every symbol the encoder emits, and of every encoder turn (R57, R71, R217): the decoder side, RAW, the
operands and the configuration are unchanged; of OUT, only the entry the step stores to may differ. -/
def Obligations.EncoderTouchesOnlyItsOwnRegisters : Prop :=
  ∀ s t : State,
    (encoderTurn s = .next t → SameOutsideEncoder s t) ∧
    (∀ i : Instr, (i = .hdr ∨ i = .bit1 ∨ i = .bit0) → exec i s = .next t →
      SameOutsideEncoder s t ∧ ∀ k, k ≠ (if s.estate = .hdr then 0 else s.nextIndex) → t.out.read k = s.out.read k)

/-- No encoder step stops: the encoder cannot form an index outside OUT (R68, R190). -/
def Obligations.EncoderNeverStops : Prop :=
  ∀ s : State, s.Inv → ∃ t, encoderTurn s = .next t

/-- Under any interleaving of the two engines, a started ENCODE ends within 1 + ENC_BITS of its own steps with the pulse
train the function of R187 gives, or refused (R187, R190, R217). -/
def Obligations.EncodeComputesTheFrameFunction : Prop :=
  ∀ s : State, s.Inv → s.CaptureWritten → s.estate = .hdr →
    (∀ a ∈ s.sched, a ≠ Agent.host) → 1 + s.encBits ≤ s.sched.count .encoder →
      ∃ t, Sys2Proof.core.run s.sched.length s = .next t ∧ State.estate t = .idle ∧ State.encDone t = true ∧
        State.encValue t = s.encValue ∧ State.encBits t = s.encBits ∧
        match s.cfg.encodeFrame s.encValue s.encBits with
        | some train => State.encErr t = false ∧ State.HoldsTrain t train
        | none => State.encErr t = true ∧ State.outLen t = 0 ∧ State.out t = s.out

/-- The two engines do not depend on each other: their turns commute (R217). -/
def Obligations.EnginesCommute : Prop :=
  ∀ s a b : State, decoderTurn s = .next a → encoderTurn s = .next b →
    ∃ t, encoderTurn a = .next t ∧ decoderTurn b = .next t

/-! ## Steps, the host, reset -/

/-- A step of the host runs the move at the head of its list, and a command word by the instruction it is (R72, R106). A
wait is over when its flag is 1, and until then the step leaves it at the head (R108). Which agent moves next, the host on
an empty schedule when both engines are idle, and the list of moves are the model's choices (notes/assumptions/7.md,
notes/assumptions/8.md), and so is putting a wait back (notes/assumptions/19.md). -/
def Obligations.StepRunsTheCommandWord : Prop :=
  ∀ (s u : State) (m : HostMove) (rest : List HostMove), s.cfg.wf = true → s.moves = m :: rest →
    ((∃ l, s.sched = .host :: l ∧ u = { s with moves := rest, sched := l }) ∨
      (s.sched = [] ∧ s.dstate = .idle ∧ s.estate = .idle ∧ u = { s with moves := rest })) →
    step s = hostMove m u ∧
    (∀ w i, m = .cmd w → decodeCmd w = .ok i → step s = exec i u) ∧
    (m = .awaitDec → step s = .next (if s.decDone then u else { u with moves := s.moves })) ∧
    (m = .awaitEnc → step s = .next (if s.encDone then u else { u with moves := s.moves }))

/-- A table word placed by `withFetchWord`, which is the model's own (notes/assumptions/8.md), is the next thing the
machine runs. -/
def Obligations.PlacedWordRunsNext : Prop :=
  ∀ (s : State) (nbits w : Nat) (i : Instr), s.cfg.wf = true → decodeTableWord nbits w = some i →
    step (s.withFetchWord nbits w) = exec i s

/-- The decoder's step runs the symbol that stands at the position it has reached (R93, R140). The schedule is the model's
own (notes/assumptions/7.md). -/
def Obligations.StepRunsTheReceivedSymbol : Prop :=
  ∀ (s u : State) (l : List Agent), s.cfg.wf = true → s.sched = .decoder :: l → u = { s with sched := l } →
    (s.dstate = .skip → step s = exec .lead u) ∧
    (∀ d i, s.dstate = .hdr → s.readRaw 1 = .ok d → decodeRx s.cfg 1 [d] = .ok i → step s = exec i u) ∧
    (∀ sp m i, s.dstate = .bits → s.ofs + 2 ≤ s.rawLen → s.readRaw s.ofs = .ok sp →
      s.readRaw (s.ofs + 1) = .ok m → decodeRx s.cfg s.ofs [sp, m] = .ok i → step s = exec i u)

/-- The encoder's step runs the symbol it emits next (R179, R183). The schedule is the model's own
(notes/assumptions/7.md). -/
def Obligations.StepRunsTheEmittedSymbol : Prop :=
  ∀ (s u : State) (l : List Agent), s.cfg.wf = true → s.sched = .encoder :: l → u = { s with sched := l } →
    (s.estate = .hdr → step s = exec .hdr u) ∧
    (s.estate = .bits → s.encValue.testBit s.bitIdx = true → step s = exec .bit1 u) ∧
    (s.estate = .bits → s.encValue.testBit s.bitIdx = false → step s = exec .bit0 u)

/-- A symbol's meaning stops by name where its engine is not at a place of that symbol (R93, R99): the model's choice
(notes/assumptions/10.md). -/
def Obligations.SymbolsOutOfPlaceAreRefused : Prop :=
  ∀ s : State,
    (s.dstate ≠ .skip → exec .lead s = .refused .symbolOutOfPlace) ∧
    (∀ d, s.dstate ≠ .hdr → exec (.hdrm d) s = .refused .symbolOutOfPlace) ∧
    (∀ sp m, s.dstate ≠ .bits ∨ s.rawLen < s.ofs + 2 →
      exec (.sbit1 sp m) s = .refused .symbolOutOfPlace ∧ exec (.sbit0 sp m) s = .refused .symbolOutOfPlace) ∧
    (s.estate ≠ .hdr → exec .hdr s = .refused .symbolOutOfPlace) ∧
    (s.estate ≠ .bits ∨ s.encValue.testBit s.bitIdx = false → exec .bit1 s = .refused .symbolOutOfPlace) ∧
    (s.estate ≠ .bits ∨ s.encValue.testBit s.bitIdx = true → exec .bit0 s = .refused .symbolOutOfPlace)

/-- From a state that meets the invariant, an engine's step is never refused: the steps run every symbol in its place. -/
def Obligations.EngineStepsAreNeverRefused : Prop :=
  ∀ (s : State) (a : Agent) (l : List Agent) (r : Refusal), s.Inv → s.sched = a :: l → a ≠ .host →
    step s ≠ .refused r

/-- LOADRAW: RAW and RAW_LEN hold the capture; elements beyond it keep what they held, and nothing else changes (R34, R35,
R108). -/
def Obligations.LoadedCaptureIsHeld : Prop :=
  ∀ (s : State) (es : List Nat), s.dstate = .idle → es.length ≤ s.cfg.rawCap →
    (∀ e ∈ es, e < 2 ^ s.cfg.durW) →
      ∃ t, hostMove (.loadRaw es) s = .next t ∧ t.HoldsCapture es ∧
        (∀ i, es.length ≤ i → t.raw.read i = s.raw.read i) ∧ t = { s with raw := t.raw, rawLen := es.length }

/-- The other writes of the host: one element of RAW, RAW_LEN, ENC_VALUE, ENC_BITS, and both operands at once (R57). -/
def Obligations.HostWritesReachTheirRegister : Prop :=
  ∀ (s : State) (i e n v : Nat),
    (s.dstate = .idle → i < s.cfg.rawCap → e < 2 ^ s.cfg.durW →
      ∃ t, hostMove (.writeRaw i e) s = .next t ∧ t.readRaw i = .ok e ∧
        (∀ j, j ≠ i → t.readRaw j = s.readRaw j) ∧ t = { s with raw := t.raw }) ∧
    (s.dstate = .idle → n ≤ s.cfg.rawCap → hostMove (.writeRawLen n) s = .next { s with rawLen := n }) ∧
    (s.estate = .idle → v < 2 ^ s.cfg.valW → hostMove (.writeEncValue v) s = .next { s with encValue := v }) ∧
    (s.estate = .idle → n < 2 ^ s.cfg.cntW → hostMove (.writeEncBits n) s = .next { s with encBits := n }) ∧
    (s.estate = .idle → v < 2 ^ s.cfg.valW → n < 2 ^ s.cfg.cntW →
      hostMove (.setEnc v n) s = .next { s with encValue := v, encBits := n })

/-- A host write of a buffer or operand that a busy engine reads has no meaning (R73; the choice is D24, the
refusal's form is notes/assumptions/11.md). -/
def Obligations.WritesWhileBusyHaveNoMeaning : Prop :=
  ∀ (s : State) (m : HostMove),
    (s.dstate ≠ .idle → ((∃ i e, m = .writeRaw i e) ∨ (∃ n, m = .writeRawLen n) ∨ (∃ es, m = .loadRaw es) ∨
        ∃ g tail, m = .loopback g tail) →
      hostMove m s = .refused .hostWriteWhileBusy) ∧
    (s.estate ≠ .idle → ((∃ v, m = .writeEncValue v) ∨ (∃ n, m = .writeEncBits n) ∨ ∃ v n, m = .setEnc v n) →
      hostMove m s = .refused .hostWriteWhileBusy)

/-- LOOPBACK after a finished ENCODE loads exactly the capture that R78 makes of OUT, and elements beyond it keep what they
held. Before ENC_DONE = 1 what the host reads is unspecified (R246, U10): LOOPBACK loads the capture of some train, of which
nothing is said but that it has its place in RAW (notes/assumptions/26.md). -/
def Obligations.LoopBackLoadsTheEncodedTrain : Prop :=
  (∀ (s : State) (train : List Pulse) (g : Nat) (tail : Bool) (es : List Nat), s.dstate = .idle →
    s.encDone = true → s.HoldsTrain train →
    es = (if tail then toCapture g train else toCaptureNoTail g train) → es.length ≤ s.cfg.rawCap →
    (∀ e ∈ es, e < 2 ^ s.cfg.durW) →
      ∃ t, hostMove (.loopback g tail) s = .next t ∧ t.HoldsCapture es ∧
        (∀ i, es.length ≤ i → t.raw.read i = s.raw.read i) ∧ t = { s with raw := t.raw, rawLen := es.length }) ∧
  (∀ (s : State) (g : Nat) (tail : Bool), s.cfg.wf = true → s.dstate = .idle → s.encDone = false →
    g < 2 ^ s.cfg.durW →
      ∃ t es train, hostMove (.loopback g tail) s = .next t ∧ t.HoldsCapture es ∧ es.length ≤ s.cfg.rawCap ∧
        es = (if tail then toCapture g train else toCaptureNoTail g train) ∧
        (∀ i, es.length ≤ i → t.raw.read i = s.raw.read i) ∧
        t = { s with raw := t.raw, rawLen := es.length, draws := t.draws })

/-- A host read answers the register whenever its content is valid, a written element of RAW and the host's own registers
at all times, and TX_KHZ is CARRIER_KHZ at all times (R49, R57, R246). What RAW_LEN, ENC_VALUE and ENC_BITS hold before the
host's first write is the model's choice (notes/assumptions/3.md). -/
def Obligations.ValidReadsGiveTheRegister : Prop :=
  ∀ s : State,
    hostRead .txKhz s = some (.num s.cfg.carrierKhz) ∧
    hostRead .decDone s = some (.flag s.decDone) ∧ hostRead .encDone s = some (.flag s.encDone) ∧
    hostRead .decBusy s = some (.flag (decide (s.dstate ≠ .idle))) ∧
    hostRead .encBusy s = some (.flag (decide (s.estate ≠ .idle))) ∧
    (s.decDone = true → hostRead .decMatch s = some (.flag s.decMatch)) ∧
    (s.decDone = true → s.decMatch = true →
      hostRead .decValue s = some (.num s.decValue) ∧ hostRead .decBits s = some (.num s.decBits)) ∧
    (s.encDone = true → hostRead .encErr s = some (.flag s.encErr) ∧ hostRead .outLen s = some (.num s.outLen)) ∧
    (∀ k q, s.encDone = true → k < s.outLen → k < s.cfg.outCap → s.out.read k = some q →
      hostRead (.out k) s = some (.pair q)) ∧
    (∀ i d, i < s.cfg.rawCap → s.raw.read i = some d → hostRead (.raw i) s = some (.num d)) ∧
    hostRead .rawLen s = some (.num s.rawLen) ∧ hostRead .encValue s = some (.num s.encValue) ∧
    hostRead .encBits s = some (.num s.encBits)

/-- The values R55 gives for reset (its choice, D20): engines idle, the four flags 0, OUT_LEN 0, TX_KHZ the carrier,
nothing in RAW and OUT. The registers R55 leaves unspecified are not spoken of (notes/assumptions/3.md). -/
def Obligations.ResetLeavesTheTabledValues : Prop :=
  ∀ (p : Params) (s : State), (s = State.resetOf p ∨ (p = .ref ∧ s = State.reset)) →
    s.cfg = p ∧ s.dstate = .idle ∧ s.estate = .idle ∧ s.decDone = false ∧ s.decMatch = false ∧
    s.encDone = false ∧ s.encErr = false ∧ s.outLen = 0 ∧ s.txKhz = p.carrierKhz ∧
    (∀ i, s.raw.read i = none) ∧ (∀ k, s.out.read k = none)

/-- Reset asserted at any moment abandons what is in flight: both engines idle, both done flags 0, configuration
untouched (R240, R241; D20, D21). What lies outside the block goes on (notes/assumptions/12.md). -/
def Obligations.ResetAbandonsOperations : Prop :=
  ∀ (s t : State), hostMove .reset s = .next t →
    t.dstate = .idle ∧ t.estate = .idle ∧ t.decDone = false ∧ t.encDone = false ∧ t.decMatch = false ∧
    t.encErr = false ∧ t.outLen = 0 ∧ t.cfg = s.cfg ∧ t.moves = s.moves ∧ t.sched = s.sched

/-- The invariant holds right after reset, for REF and for every well-formed parameter set. -/
def Obligations.ResetMeetsTheInvariant : Prop :=
  State.Inv State.reset ∧ ∀ p : Params, p.wf = true → State.Inv (State.resetOf p)

/-- Every step keeps the invariant: well-formed configuration, canonical buffers inside their capacities, every register
inside its width, and each engine's registers where its state says they are. -/
def Obligations.StepKeepsTheInvariant : Prop :=
  ∀ s t : State, s.Inv → step s = .next t → t.Inv

/-- The configuration never changes (R33, R75). -/
def Obligations.ConfigurationNeverChanges : Prop :=
  ∀ s t : State, step s = .next t → t.cfg = s.cfg

/-- An instance that breaks any of WF1 to WF7 has no meaning (R10, R104): it takes no step; the
refusal's form is the model's (notes/assumptions/9.md). -/
def Obligations.IllFormedInstanceTakesNoStep : Prop :=
  ∀ s : State,
    (s.cfg.bitEncodedBy = .spaceWidth ∨ s.cfg.oneMarkUs = s.cfg.zeroMarkUs ∨ s.cfg.hdrMarkUs = 0 ∨
      s.cfg.hdrSpaceUs = 0 ∨ s.cfg.oneMarkUs = 0 ∨ s.cfg.zeroMarkUs = 0 ∨ s.cfg.interSpaceUs = 0 ∨
      2 ^ s.cfg.durW ≤ s.cfg.hdrMarkUs ∨ 2 ^ s.cfg.durW ≤ s.cfg.hdrSpaceUs ∨ 2 ^ s.cfg.durW ≤ s.cfg.oneMarkUs ∨
      2 ^ s.cfg.durW ≤ s.cfg.zeroMarkUs ∨ 2 ^ s.cfg.durW ≤ s.cfg.interSpaceUs ∨ s.cfg.durW = 0 ∨ s.cfg.khzW = 0 ∨
      s.cfg.carrierKhz = 0 ∨ 2 ^ s.cfg.khzW ≤ s.cfg.carrierKhz ∨ s.cfg.matches s.cfg.zeroMarkUs s.cfg.oneMarkUs = true ∨
      s.cfg.maxBits < s.cfg.minBits ∨ s.cfg.valW < s.cfg.maxBits ∨ 100 < s.cfg.tolPct ∨
      2 ^ s.cfg.durW ≤ s.cfg.tolFloorUs ∨ s.cfg.rawCap < 2 ∨
      2 ^ s.cfg.cntW ≤ max (s.cfg.valW + 1) ((s.cfg.rawCap - 1) / 2)) →
    step s = .refused .illFormedConfig

/-- The end of a run (R256): with both engines idle and no host move left, nothing changes any more but the schedule. R256
says that the run has ended: that the machine then goes on answering the same state, and that an idle turn uses up its
place in the schedule, are the model's choices (notes/assumptions/7.md, notes/assumptions/8.md). -/
def Obligations.QuiescentMachineStays : Prop :=
  ∀ s : State, s.cfg.wf = true → s.Quiescent →
    (s.sched = [] → step s = .next s) ∧ (∀ a l, s.sched = a :: l → step s = .next { s with sched := l })
end

