-- ==== Sys2Proof/Laws/Matcher.lean ====
section
/-! SUPPORT. What the matcher and the decoding functions answer. -/

namespace Sys2Proof

theorem Params.matches_iff (p : Params) (o e : Nat) :
    p.matches o e = true ↔ e ≤ o + p.tol e ∧ o ≤ e + p.tol e := by
  simp [Params.matches]

/-- A duration always matches itself. -/
@[simp] theorem Params.matches_self (p : Params) (e : Nat) : p.matches e e = true := by
  simp [Params.matches]

theorem Params.bitOfMark_true {p : Params} {m : Nat} :
    p.bitOfMark m = some true ↔ p.matches m p.oneMarkUs = true := by
  unfold Params.bitOfMark
  split
  · simp [*]
  · split <;> simp [*]

theorem Params.bitOfMark_false {p : Params} {m : Nat} :
    p.bitOfMark m = some false ↔ p.matches m p.oneMarkUs = false ∧ p.matches m p.zeroMarkUs = true := by
  unfold Params.bitOfMark
  split
  · simp [*]
  · split <;> simp_all

theorem Params.bitOfMark_none {p : Params} {m : Nat} :
    p.bitOfMark m = none ↔ p.matches m p.oneMarkUs = false ∧ p.matches m p.zeroMarkUs = false := by
  unfold Params.bitOfMark
  split
  · simp [*]
  · split <;> simp_all

/-- The parts of a well-formed parameter set. -/
theorem Params.wf_iff (p : Params) :
    p.wf = true ↔ p.durationsOk = true ∧ p.marksDiffer = true ∧ p.carrierOk = true ∧ p.marksSeparable = true ∧
      p.bitRangeOk = true ∧ p.toleranceOk = true ∧ p.shapeOk = true := by
  simp [Params.wf, and_assoc]

theorem Params.shape_of_wf {p : Params} (h : p.wf = true) :
    2 ≤ p.rawCap ∧ p.valW + 1 < 2 ^ p.cntW ∧ (p.rawCap - 1) / 2 < 2 ^ p.cntW := by
  obtain ⟨-, -, -, -, -, -, h⟩ := (Params.wf_iff p).mp h
  simp only [Params.shapeOk, fits, Bool.and_eq_true, decide_eq_true_eq] at h
  omega

/-- Every timing register of a well-formed parameter set fits DUR_W bits. -/
theorem Params.durations_of_wf {p : Params} (h : p.wf = true) :
    p.hdrMarkUs < 2 ^ p.durW ∧ p.hdrSpaceUs < 2 ^ p.durW ∧ p.oneMarkUs < 2 ^ p.durW ∧
      p.zeroMarkUs < 2 ^ p.durW ∧ p.interSpaceUs < 2 ^ p.durW := by
  obtain ⟨h, -⟩ := (Params.wf_iff p).mp h
  simp only [Params.durationsOk, Params.durOk, fits, Bool.and_eq_true, decide_eq_true_eq] at h
  exact ⟨h.1.1.1.1.2, h.1.1.1.2.2, h.1.1.2.2, h.1.2.2, h.2.2⟩

/-- WF4 at work: the nominal mark of a bit carries that bit. -/
theorem Params.bitOfMark_nominal {p : Params} (h : p.wf = true) (b : Bool) :
    p.bitOfMark (p.bitPair b).mark = some b := by
  obtain ⟨-, -, -, h4, -⟩ := (Params.wf_iff p).mp h
  cases b
  · exact Params.bitOfMark_false.mpr ⟨by simpa [Params.marksSeparable, Params.bitPair] using h4, by simp [Params.bitPair]⟩
  · exact Params.bitOfMark_true.mpr (by simp [Params.bitPair])

theorem Params.rawCap_lt_idx (p : Params) : p.rawCap < 2 ^ p.idxW := Nat.lt_log2_self

theorem trunc_lt (w v : Nat) : trunc w v < 2 ^ w := Nat.mod_lt _ (Nat.two_pow_pos w)

theorem decodeSpace_ok {p : Params} {i : Nat} {sp : Nat} {u : Unit} :
    decodeSpace p i sp = .ok u ↔ p.matches sp (p.expectedSpace i) = true := by
  unfold decodeSpace
  split <;> simp [*]

theorem decodeHdrm_ok {p : Params} {d : Nat} {i : Instr} :
    decodeHdrm p d = .ok i ↔ p.matches d p.hdrMarkUs = true ∧ i = .hdrm d := by
  unfold decodeHdrm
  split <;> simp [*, eq_comm]

theorem decodeMark_ok {p : Params} {sp m : Nat} {i : Instr} :
    decodeMark p sp m = .ok i ↔
      (p.bitOfMark m = some true ∧ i = .sbit1 sp m) ∨ (p.bitOfMark m = some false ∧ i = .sbit0 sp m) := by
  unfold decodeMark
  split <;> rename_i h <;> simp [h, eq_comm]

theorem decodePair_ok {p : Params} {k : Nat} {sp m : Nat} {i : Instr} :
    decodePair p k sp m = .ok i ↔ p.matches sp (p.expectedSpace k) = true ∧
      ((p.bitOfMark m = some true ∧ i = .sbit1 sp m) ∨ (p.bitOfMark m = some false ∧ i = .sbit0 sp m)) := by
  unfold decodePair decodeSpace
  by_cases h : p.matches sp (p.expectedSpace k) = true <;> simp [h, decodeMark_ok]

/-- The command words: four numbers, four instructions (R106). -/
theorem decodeCmd_ok {w : Nat} {i : Instr} :
    decodeCmd w = .ok i ↔ (w = 0 ∧ i = .nop) ∨ (w = 1 ∧ i = .decode false) ∨ (w = 2 ∧ i = .encode) ∨
      (w = 3 ∧ i = .decode true) := by
  unfold decodeCmd
  split
  · rename_i h
    constructor
    · intro h'; cases h'
    · rintro (⟨rfl, -⟩ | ⟨rfl, -⟩ | ⟨rfl, -⟩ | ⟨rfl, -⟩) <;> omega
  · rename_i h
    have : w = 0 ∨ w = 1 ∨ w = 2 ∨ w = 3 := by omega
    rcases this with rfl | rfl | rfl | rfl <;> simp [bitAt, Nat.testBit, eq_comm]

end Sys2Proof
end

