-- ==== Sys2Proof/Laws/Memory.lean ====
section
/-! SUPPORT. The laws of the two buffers: what a read gives after a write, that a write keeps the canonical form, and
what a write can add. -/

namespace Sys2Proof.Machine

variable {α : Type}

theorem Memory.read_write_same (m : Memory α) (i : Nat) (v : α) : (m.write i v).read i = some v := by
  induction m with
  | nil => simp [Memory.write, Memory.read]
  | cons c rest ih =>
    obtain ⟨j, w⟩ := c
    rw [Memory.write]
    split
    · simp [Memory.read]
    · split
      · simp [Memory.read]
      · have : j ≠ i := by omega
        simp [Memory.read, this, ih]

theorem Memory.read_write_other (m : Memory α) {i k : Nat} (v : α) (h : k ≠ i) :
    (m.write i v).read k = m.read k := by
  induction m with
  | nil => simp [Memory.write, Memory.read, h.symm]
  | cons c rest ih =>
    obtain ⟨j, w⟩ := c
    rw [Memory.write]
    split
    · simp [Memory.read, h.symm]
    · split
      · rename_i hij
        subst hij
        simp [Memory.read, h.symm]
      · simp [Memory.read, ih]

theorem Memory.read_write (m : Memory α) (i k : Nat) (v : α) :
    (m.write i v).read k = if k = i then some v else m.read k := by
  split
  · rename_i h; subst h; exact m.read_write_same k v
  · rename_i h; exact m.read_write_other v h

/-- What is listed after a write was listed before, or is the entry written. -/
theorem Memory.mem_write {m : Memory α} {i : Nat} {v : α} {c : Nat × α} (h : c ∈ m.write i v) :
    c = (i, v) ∨ c ∈ m := by
  induction m with
  | nil => simpa [Memory.write] using h
  | cons d rest ih =>
    obtain ⟨j, w⟩ := d
    rw [Memory.write] at h
    split at h
    · simpa using h
    · split at h
      · rcases List.mem_cons.mp h with h | h
        · exact .inl h
        · exact .inr (List.mem_cons_of_mem _ h)
      · rcases List.mem_cons.mp h with h | h
        · exact .inr (h ▸ List.mem_cons_self)
        · exact (ih h).imp id (List.mem_cons_of_mem _)

/-- The canonical form, one entry at a time: the head's index lies below every other. -/
theorem Memory.wf_cons (c : Nat × α) (m : Memory α) :
    Memory.wf (c :: m) = true ↔ (∀ d ∈ m, c.1 < d.1) ∧ Memory.wf m = true := by
  induction m generalizing c with
  | nil => simp [Memory.wf]
  | cons e rest ih =>
    simp only [Memory.wf, Bool.and_eq_true, decide_eq_true_eq, ih, List.mem_cons]
    constructor
    · rintro ⟨h, he, hr⟩
      refine ⟨?_, he, hr⟩
      rintro d (rfl | hd)
      · exact h
      · exact h.trans (he d hd)
    · rintro ⟨h, he, hr⟩
      exact ⟨h e (.inl rfl), he, hr⟩

/-- Every write keeps the canonical form. -/
theorem Memory.write_wf {m : Memory α} (h : m.wf = true) (i : Nat) (v : α) : (m.write i v).wf = true := by
  induction m with
  | nil => rfl
  | cons c rest ih =>
    obtain ⟨j, w⟩ := c
    obtain ⟨hj, hr⟩ := (Memory.wf_cons _ _).mp h
    rw [Memory.write]
    split
    · rename_i hij
      refine (Memory.wf_cons _ _).mpr ⟨?_, h⟩
      intro d hd
      rcases List.mem_cons.mp hd with rfl | hd
      · exact hij
      · exact hij.trans (hj d hd)
    · split
      · rename_i hij
        subst hij
        exact (Memory.wf_cons _ _).mpr ⟨hj, hr⟩
      · refine (Memory.wf_cons _ _).mpr ⟨?_, ih hr⟩
        intro d hd
        rcases Memory.mem_write hd with rfl | hd
        · show j < i
          omega
        · exact hj d hd

theorem Memory.writeList_wf {m : Memory α} (h : m.wf = true) (i : Nat) (vs : List α) :
    (m.writeList i vs).wf = true := by
  induction vs generalizing m i with
  | nil => exact h
  | cons v vs ih => exact ih (Memory.write_wf h i v) (i + 1)

theorem Memory.mem_writeList {m : Memory α} {i : Nat} {vs : List α} {c : Nat × α} (h : c ∈ m.writeList i vs) :
    c ∈ m ∨ (i ≤ c.1 ∧ c.1 < i + vs.length ∧ c.2 ∈ vs) := by
  induction vs generalizing m i with
  | nil => exact .inl h
  | cons v vs ih =>
    rcases ih h with h | ⟨h1, h2, h3⟩
    · rcases Memory.mem_write h with rfl | h
      · exact .inr (by simp)
      · exact .inl h
    · exact .inr ⟨by omega, by simp; omega, List.mem_cons_of_mem _ h3⟩

/-- A run of writes: inside it the entry written, outside it what was there. -/
theorem Memory.read_writeList (m : Memory α) (i k : Nat) (vs : List α) :
    (m.writeList i vs).read k = if i ≤ k ∧ k < i + vs.length then vs[k - i]? else m.read k := by
  induction vs generalizing m i with
  | nil =>
    simp [Memory.writeList]
  | cons v vs ih =>
    rw [Memory.writeList, ih, Memory.read_write, List.length_cons]
    by_cases hk : k = i
    · subst hk
      have h1 : ¬ (k + 1 ≤ k ∧ k < k + 1 + vs.length) := by omega
      have h2 : k ≤ k ∧ k < k + (vs.length + 1) := by omega
      rw [if_neg h1, if_pos rfl, if_pos h2]
      simp
    · rw [if_neg hk]
      by_cases h : i + 1 ≤ k ∧ k < i + 1 + vs.length
      · have h2 : i ≤ k ∧ k < i + (vs.length + 1) := by omega
        rw [if_pos h, if_pos h2, show k - i = (k - (i + 1)) + 1 by omega, List.getElem?_cons_succ]
      · have h2 : ¬ (i ≤ k ∧ k < i + (vs.length + 1)) := by omega
        rw [if_neg h, if_neg h2]

/-- A listed index and its entry, from a read. -/
theorem Memory.mem_of_read {m : Memory α} {i : Nat} {v : α} (h : m.read i = some v) : (i, v) ∈ m := by
  induction m with
  | nil => simp [Memory.read] at h
  | cons c rest ih =>
    obtain ⟨j, w⟩ := c
    rw [Memory.read] at h
    split at h
    · rename_i hj
      subst hj
      simp only [Option.some.injEq] at h
      subst h
      exact List.mem_cons_self
    · exact List.mem_cons_of_mem _ (ih h)

/-! The two buffers of State. -/

theorem State.readRaw_ok {s : State} {i : Nat} {d : Nat} :
    s.readRaw i = .ok d ↔ i < s.cfg.rawCap ∧ s.raw.read i = some d := by
  unfold State.readRaw
  split
  · rename_i h
    constructor
    · intro h'; cases h'
    · rintro ⟨h', -⟩; omega
  · rename_i h
    split <;> rename_i hr <;> (simp [hr]; try omega)

theorem State.writeOut_ok {s : State} {k : Nat} {q : Pulse} {t : State} :
    s.writeOut k q = .ok t ↔ k < s.cfg.outCap ∧ t = { s with out := s.out.write k q } := by
  unfold State.writeOut
  split
  · rename_i h
    constructor
    · intro h'; cases h'
    · rintro ⟨h', -⟩; omega
  · rename_i h
    constructor
    · intro h'; cases h'; exact ⟨by omega, rfl⟩
    · rintro ⟨-, rfl⟩; rfl

end Sys2Proof.Machine
end

