-- ==== Sys2Proof/Laws/Operands.lean ====
section
/-! SUPPORT. What the operand functions compute, in the arithmetic of the spec. -/

namespace Sys2Proof.Machine

/-- `((DATA << 1) | b) mod 2^VAL_W` is `(2 DATA + b) mod 2^VAL_W` (R100, R148). -/
theorem State.shiftIn_eq (s : State) (b : Bool) : s.shiftIn b = (2 * s.data + b.toNat) % 2 ^ s.cfg.valW := by
  have h : b.toNat < 2 ^ 1 := by cases b <;> decide
  unfold State.shiftIn trunc
  rw [Nat.shiftLeft_eq, Nat.mul_comm, ← Nat.two_pow_add_eq_or_of_lt h, Nat.pow_one]

/-- When the final step rejects the count (R150). -/
theorem State.lengthBad_iff (s : State) : s.lengthBad = true ↔
    s.cfg.lenCheck = .strict ∧ (s.bitCount < s.cfg.minBits ∨ s.cfg.maxBits < s.bitCount) := by
  simp [State.lengthBad]

/-- The length check of the step and of the frame function are the same (R150). -/
theorem State.lengthBad_eq (s : State) : s.lengthBad = !s.cfg.lengthOk s.bitCount := by
  unfold State.lengthBad Params.lengthOk
  cases s.cfg.lenCheck
  · rfl
  · by_cases h : s.bitCount < s.cfg.minBits <;> by_cases h' : s.cfg.maxBits < s.bitCount <;>
      simp [h, h', Nat.not_le.mpr, Nat.le_of_not_lt]

/-- ENC_BITS is bad exactly when the frame function refuses it (R181, R187). -/
theorem State.encBitsBad_iff (s : State) : s.encBitsBad = true ↔ ¬ (1 ≤ s.encBits ∧ s.encBits ≤ s.cfg.valW) := by
  simp only [State.encBitsBad, Bool.or_eq_true, decide_eq_true_eq]
  omega

end Sys2Proof.Machine
end

