-- ==== Sys2Proof/Laws/PerInstr.lean ====
section
/-! SUPPORT. The family EncodingFits: every well-formed instruction is encoded in fields of the widths of R90. -/

namespace Sys2Proof.Laws.EncodingFits

/-- Every field of the encoding of `i` fits the width R90 gives it. -/
def Statement (i : Instr) : Prop :=
  ∀ (p : Params) (pos : Nat), p.wf = true → i.wf p pos = true → (Sys2Proof.encode p i).fitsIn p = true

/-- The five timing registers of a well-formed parameter set fit DUR_W bits (WF1). -/
theorem timings_fit {p : Params} (h : p.wf = true) :
    fits p.durW p.hdrMarkUs = true ∧ fits p.durW p.hdrSpaceUs = true ∧ fits p.durW p.oneMarkUs = true ∧
      fits p.durW p.zeroMarkUs = true ∧ fits p.durW p.interSpaceUs = true := by
  simp only [Params.wf, Params.durationsOk, Params.durOk, Bool.and_eq_true] at h
  exact ⟨h.1.1.1.1.1.1.1.1.1.1.2, h.1.1.1.1.1.1.1.1.1.2.2, h.1.1.1.1.1.1.1.1.2.2, h.1.1.1.1.1.1.1.2.2,
    h.1.1.1.1.1.1.2.2⟩

theorem nop : Statement .nop := fun _ _ _ _ => rfl

theorem decode (enc : Bool) : Statement (.decode enc) := fun _ _ _ _ => by cases enc <;> rfl

theorem encode : Statement .encode := fun _ _ _ _ => rfl

theorem matchOp (o e : Nat) : Statement (.matchOp o e) := fun p pos _ hi => by
  simp only [Instr.wf, Bool.and_eq_true] at hi
  simp [Sys2Proof.encode, Code.fitsIn, hi.1.1, hi.1.2]

theorem lead : Statement .lead := fun p _ _ _ => by
  simp [Sys2Proof.encode, Code.fitsIn, fits]

theorem hdrm (d : Nat) : Statement (.hdrm d) := fun p pos _ hi => by
  simp only [Instr.wf, Bool.and_eq_true] at hi
  simp [Sys2Proof.encode, Code.fitsIn, hi.1.2]

theorem sbit1 (sp mk : Nat) : Statement (.sbit1 sp mk) := fun p pos _ hi => by
  simp only [Instr.wf, Bool.and_eq_true] at hi
  simp [Sys2Proof.encode, Code.fitsIn, hi.1.1.1.2, hi.1.1.2]

theorem sbit0 (sp mk : Nat) : Statement (.sbit0 sp mk) := fun p pos _ hi => by
  simp only [Instr.wf, Bool.and_eq_true] at hi
  simp [Sys2Proof.encode, Code.fitsIn, hi.1.1.1.2, hi.1.1.2]

theorem hdr : Statement .hdr := fun _ _ hp _ => by
  simp [Sys2Proof.encode, Code.fitsIn, Params.hdrPair, timings_fit hp]

theorem bit1 : Statement .bit1 := fun _ _ hp _ => by
  simp [Sys2Proof.encode, Code.fitsIn, Params.bitPair, timings_fit hp]

theorem bit0 : Statement .bit0 := fun _ _ hp _ => by
  simp [Sys2Proof.encode, Code.fitsIn, Params.bitPair, timings_fit hp]

end Sys2Proof.Laws.EncodingFits
end

