-- ==== Sys2Proof/Laws/State.lean ====
section
/-! SUPPORT. One lemma per field per named update of State, so that no proof unfolds a record update. -/

namespace Sys2Proof.Machine

/-! DEC flags at a start (R141). -/

@[simp] theorem State.decStartFlags_cfg (s : State) : (s.decStartFlags).cfg = s.cfg := rfl
@[simp] theorem State.decStartFlags_raw (s : State) : (s.decStartFlags).raw = s.raw := rfl
@[simp] theorem State.decStartFlags_rawLen (s : State) : (s.decStartFlags).rawLen = s.rawLen := rfl
@[simp] theorem State.decStartFlags_ofs (s : State) : (s.decStartFlags).ofs = s.ofs := rfl
@[simp] theorem State.decStartFlags_data (s : State) : (s.decStartFlags).data = s.data := rfl
@[simp] theorem State.decStartFlags_dstate (s : State) : (s.decStartFlags).dstate = s.dstate := rfl
@[simp] theorem State.decStartFlags_decDone (s : State) : (s.decStartFlags).decDone = false := rfl
@[simp] theorem State.decStartFlags_decMatch (s : State) : (s.decStartFlags).decMatch = s.decMatch := rfl
@[simp] theorem State.decStartFlags_decValue (s : State) : (s.decStartFlags).decValue = s.decValue := rfl
@[simp] theorem State.decStartFlags_decBits (s : State) : (s.decStartFlags).decBits = s.decBits := rfl
@[simp] theorem State.decStartFlags_encValue (s : State) : (s.decStartFlags).encValue = s.encValue := rfl
@[simp] theorem State.decStartFlags_encBits (s : State) : (s.decStartFlags).encBits = s.encBits := rfl
@[simp] theorem State.decStartFlags_estate (s : State) : (s.decStartFlags).estate = s.estate := rfl
@[simp] theorem State.decStartFlags_bitIdx (s : State) : (s.decStartFlags).bitIdx = s.bitIdx := rfl
@[simp] theorem State.decStartFlags_out (s : State) : (s.decStartFlags).out = s.out := rfl
@[simp] theorem State.decStartFlags_outLen (s : State) : (s.decStartFlags).outLen = s.outLen := rfl
@[simp] theorem State.decStartFlags_encDone (s : State) : (s.decStartFlags).encDone = s.encDone := rfl
@[simp] theorem State.decStartFlags_encErr (s : State) : (s.decStartFlags).encErr = s.encErr := rfl
@[simp] theorem State.decStartFlags_matchOut (s : State) : (s.decStartFlags).matchOut = s.matchOut := rfl
@[simp] theorem State.decStartFlags_draws (s : State) : (s.decStartFlags).draws = s.draws := rfl
@[simp] theorem State.decStartFlags_moves (s : State) : (s.decStartFlags).moves = s.moves := rfl
@[simp] theorem State.decStartFlags_sched (s : State) : (s.decStartFlags).sched = s.sched := rfl

/-! DEC flags at an end (R151, R207). -/

@[simp] theorem State.decEndFlags_cfg (s : State) (b : Bool) : (s.decEndFlags b).cfg = s.cfg := rfl
@[simp] theorem State.decEndFlags_raw (s : State) (b : Bool) : (s.decEndFlags b).raw = s.raw := rfl
@[simp] theorem State.decEndFlags_rawLen (s : State) (b : Bool) : (s.decEndFlags b).rawLen = s.rawLen := rfl
@[simp] theorem State.decEndFlags_ofs (s : State) (b : Bool) : (s.decEndFlags b).ofs = s.ofs := rfl
@[simp] theorem State.decEndFlags_data (s : State) (b : Bool) : (s.decEndFlags b).data = s.data := rfl
@[simp] theorem State.decEndFlags_dstate (s : State) (b : Bool) : (s.decEndFlags b).dstate = s.dstate := rfl
@[simp] theorem State.decEndFlags_decDone (s : State) (b : Bool) : (s.decEndFlags b).decDone = true := rfl
@[simp] theorem State.decEndFlags_decMatch (s : State) (b : Bool) : (s.decEndFlags b).decMatch = b := rfl
@[simp] theorem State.decEndFlags_decValue (s : State) (b : Bool) : (s.decEndFlags b).decValue = s.decValue := rfl
@[simp] theorem State.decEndFlags_decBits (s : State) (b : Bool) : (s.decEndFlags b).decBits = s.decBits := rfl
@[simp] theorem State.decEndFlags_encValue (s : State) (b : Bool) : (s.decEndFlags b).encValue = s.encValue := rfl
@[simp] theorem State.decEndFlags_encBits (s : State) (b : Bool) : (s.decEndFlags b).encBits = s.encBits := rfl
@[simp] theorem State.decEndFlags_estate (s : State) (b : Bool) : (s.decEndFlags b).estate = s.estate := rfl
@[simp] theorem State.decEndFlags_bitIdx (s : State) (b : Bool) : (s.decEndFlags b).bitIdx = s.bitIdx := rfl
@[simp] theorem State.decEndFlags_out (s : State) (b : Bool) : (s.decEndFlags b).out = s.out := rfl
@[simp] theorem State.decEndFlags_outLen (s : State) (b : Bool) : (s.decEndFlags b).outLen = s.outLen := rfl
@[simp] theorem State.decEndFlags_encDone (s : State) (b : Bool) : (s.decEndFlags b).encDone = s.encDone := rfl
@[simp] theorem State.decEndFlags_encErr (s : State) (b : Bool) : (s.decEndFlags b).encErr = s.encErr := rfl
@[simp] theorem State.decEndFlags_matchOut (s : State) (b : Bool) : (s.decEndFlags b).matchOut = s.matchOut := rfl
@[simp] theorem State.decEndFlags_draws (s : State) (b : Bool) : (s.decEndFlags b).draws = s.draws := rfl
@[simp] theorem State.decEndFlags_moves (s : State) (b : Bool) : (s.decEndFlags b).moves = s.moves := rfl
@[simp] theorem State.decEndFlags_sched (s : State) (b : Bool) : (s.decEndFlags b).sched = s.sched := rfl

/-! ENC flags at a start (R180). -/

@[simp] theorem State.encStartFlags_cfg (s : State) : (s.encStartFlags).cfg = s.cfg := rfl
@[simp] theorem State.encStartFlags_raw (s : State) : (s.encStartFlags).raw = s.raw := rfl
@[simp] theorem State.encStartFlags_rawLen (s : State) : (s.encStartFlags).rawLen = s.rawLen := rfl
@[simp] theorem State.encStartFlags_ofs (s : State) : (s.encStartFlags).ofs = s.ofs := rfl
@[simp] theorem State.encStartFlags_data (s : State) : (s.encStartFlags).data = s.data := rfl
@[simp] theorem State.encStartFlags_dstate (s : State) : (s.encStartFlags).dstate = s.dstate := rfl
@[simp] theorem State.encStartFlags_decDone (s : State) : (s.encStartFlags).decDone = s.decDone := rfl
@[simp] theorem State.encStartFlags_decMatch (s : State) : (s.encStartFlags).decMatch = s.decMatch := rfl
@[simp] theorem State.encStartFlags_decValue (s : State) : (s.encStartFlags).decValue = s.decValue := rfl
@[simp] theorem State.encStartFlags_decBits (s : State) : (s.encStartFlags).decBits = s.decBits := rfl
@[simp] theorem State.encStartFlags_encValue (s : State) : (s.encStartFlags).encValue = s.encValue := rfl
@[simp] theorem State.encStartFlags_encBits (s : State) : (s.encStartFlags).encBits = s.encBits := rfl
@[simp] theorem State.encStartFlags_estate (s : State) : (s.encStartFlags).estate = s.estate := rfl
@[simp] theorem State.encStartFlags_bitIdx (s : State) : (s.encStartFlags).bitIdx = s.bitIdx := rfl
@[simp] theorem State.encStartFlags_out (s : State) : (s.encStartFlags).out = s.out := rfl
@[simp] theorem State.encStartFlags_outLen (s : State) : (s.encStartFlags).outLen = s.outLen := rfl
@[simp] theorem State.encStartFlags_encDone (s : State) : (s.encStartFlags).encDone = false := rfl
@[simp] theorem State.encStartFlags_encErr (s : State) : (s.encStartFlags).encErr = s.encErr := rfl
@[simp] theorem State.encStartFlags_matchOut (s : State) : (s.encStartFlags).matchOut = s.matchOut := rfl
@[simp] theorem State.encStartFlags_draws (s : State) : (s.encStartFlags).draws = s.draws := rfl
@[simp] theorem State.encStartFlags_moves (s : State) : (s.encStartFlags).moves = s.moves := rfl
@[simp] theorem State.encStartFlags_sched (s : State) : (s.encStartFlags).sched = s.sched := rfl

/-! ENC flags at an end (R185, R204). -/

@[simp] theorem State.encEndFlags_cfg (s : State) (b : Bool) : (s.encEndFlags b).cfg = s.cfg := rfl
@[simp] theorem State.encEndFlags_raw (s : State) (b : Bool) : (s.encEndFlags b).raw = s.raw := rfl
@[simp] theorem State.encEndFlags_rawLen (s : State) (b : Bool) : (s.encEndFlags b).rawLen = s.rawLen := rfl
@[simp] theorem State.encEndFlags_ofs (s : State) (b : Bool) : (s.encEndFlags b).ofs = s.ofs := rfl
@[simp] theorem State.encEndFlags_data (s : State) (b : Bool) : (s.encEndFlags b).data = s.data := rfl
@[simp] theorem State.encEndFlags_dstate (s : State) (b : Bool) : (s.encEndFlags b).dstate = s.dstate := rfl
@[simp] theorem State.encEndFlags_decDone (s : State) (b : Bool) : (s.encEndFlags b).decDone = s.decDone := rfl
@[simp] theorem State.encEndFlags_decMatch (s : State) (b : Bool) : (s.encEndFlags b).decMatch = s.decMatch := rfl
@[simp] theorem State.encEndFlags_decValue (s : State) (b : Bool) : (s.encEndFlags b).decValue = s.decValue := rfl
@[simp] theorem State.encEndFlags_decBits (s : State) (b : Bool) : (s.encEndFlags b).decBits = s.decBits := rfl
@[simp] theorem State.encEndFlags_encValue (s : State) (b : Bool) : (s.encEndFlags b).encValue = s.encValue := rfl
@[simp] theorem State.encEndFlags_encBits (s : State) (b : Bool) : (s.encEndFlags b).encBits = s.encBits := rfl
@[simp] theorem State.encEndFlags_estate (s : State) (b : Bool) : (s.encEndFlags b).estate = s.estate := rfl
@[simp] theorem State.encEndFlags_bitIdx (s : State) (b : Bool) : (s.encEndFlags b).bitIdx = s.bitIdx := rfl
@[simp] theorem State.encEndFlags_out (s : State) (b : Bool) : (s.encEndFlags b).out = s.out := rfl
@[simp] theorem State.encEndFlags_outLen (s : State) (b : Bool) : (s.encEndFlags b).outLen = s.outLen := rfl
@[simp] theorem State.encEndFlags_encDone (s : State) (b : Bool) : (s.encEndFlags b).encDone = true := rfl
@[simp] theorem State.encEndFlags_encErr (s : State) (b : Bool) : (s.encEndFlags b).encErr = b := rfl
@[simp] theorem State.encEndFlags_matchOut (s : State) (b : Bool) : (s.encEndFlags b).matchOut = s.matchOut := rfl
@[simp] theorem State.encEndFlags_draws (s : State) (b : Bool) : (s.encEndFlags b).draws = s.draws := rfl
@[simp] theorem State.encEndFlags_moves (s : State) (b : Bool) : (s.encEndFlags b).moves = s.moves := rfl
@[simp] theorem State.encEndFlags_sched (s : State) (b : Bool) : (s.encEndFlags b).sched = s.sched := rfl

/-! OFS and DATA after a DECODE (R208). -/

@[simp] theorem State.forgetPosition_cfg (s : State) : s.forgetPosition.cfg = s.cfg := rfl
@[simp] theorem State.forgetPosition_raw (s : State) : s.forgetPosition.raw = s.raw := rfl
@[simp] theorem State.forgetPosition_rawLen (s : State) : s.forgetPosition.rawLen = s.rawLen := rfl
@[simp] theorem State.forgetPosition_ofs (s : State) : s.forgetPosition.ofs = trunc s.cfg.idxW (Config.freeValue s.draws) :=
  rfl
@[simp] theorem State.forgetPosition_data (s : State) : s.forgetPosition.data = trunc s.cfg.valW (Config.freeValue (s.draws + 1)) :=
  rfl
@[simp] theorem State.forgetPosition_dstate (s : State) : s.forgetPosition.dstate = s.dstate := rfl
@[simp] theorem State.forgetPosition_decDone (s : State) : s.forgetPosition.decDone = s.decDone := rfl
@[simp] theorem State.forgetPosition_decMatch (s : State) : s.forgetPosition.decMatch = s.decMatch := rfl
@[simp] theorem State.forgetPosition_decValue (s : State) : s.forgetPosition.decValue = s.decValue := rfl
@[simp] theorem State.forgetPosition_decBits (s : State) : s.forgetPosition.decBits = s.decBits := rfl
@[simp] theorem State.forgetPosition_encValue (s : State) : s.forgetPosition.encValue = s.encValue := rfl
@[simp] theorem State.forgetPosition_encBits (s : State) : s.forgetPosition.encBits = s.encBits := rfl
@[simp] theorem State.forgetPosition_estate (s : State) : s.forgetPosition.estate = s.estate := rfl
@[simp] theorem State.forgetPosition_bitIdx (s : State) : s.forgetPosition.bitIdx = s.bitIdx := rfl
@[simp] theorem State.forgetPosition_out (s : State) : s.forgetPosition.out = s.out := rfl
@[simp] theorem State.forgetPosition_outLen (s : State) : s.forgetPosition.outLen = s.outLen := rfl
@[simp] theorem State.forgetPosition_encDone (s : State) : s.forgetPosition.encDone = s.encDone := rfl
@[simp] theorem State.forgetPosition_encErr (s : State) : s.forgetPosition.encErr = s.encErr := rfl
@[simp] theorem State.forgetPosition_matchOut (s : State) : s.forgetPosition.matchOut = s.matchOut := rfl
@[simp] theorem State.forgetPosition_draws (s : State) : s.forgetPosition.draws = s.draws + 2 := rfl
@[simp] theorem State.forgetPosition_moves (s : State) : s.forgetPosition.moves = s.moves := rfl
@[simp] theorem State.forgetPosition_sched (s : State) : s.forgetPosition.sched = s.sched := rfl

/-! NoMatch (R207, R208). -/

@[simp] theorem State.raiseNoMatch_cfg (s : State) : (s.raiseNoMatch).cfg = s.cfg := rfl
@[simp] theorem State.raiseNoMatch_raw (s : State) : (s.raiseNoMatch).raw = s.raw := rfl
@[simp] theorem State.raiseNoMatch_rawLen (s : State) : (s.raiseNoMatch).rawLen = s.rawLen := rfl
@[simp] theorem State.raiseNoMatch_ofs (s : State) : (s.raiseNoMatch).ofs = trunc s.cfg.idxW (Config.freeValue s.draws) := rfl
@[simp] theorem State.raiseNoMatch_data (s : State) : (s.raiseNoMatch).data = trunc s.cfg.valW (Config.freeValue (s.draws + 1)) := rfl
@[simp] theorem State.raiseNoMatch_dstate (s : State) : (s.raiseNoMatch).dstate = .idle := rfl
@[simp] theorem State.raiseNoMatch_decDone (s : State) : (s.raiseNoMatch).decDone = true := rfl
@[simp] theorem State.raiseNoMatch_decMatch (s : State) : (s.raiseNoMatch).decMatch = false := rfl
@[simp] theorem State.raiseNoMatch_decValue (s : State) : (s.raiseNoMatch).decValue = trunc s.cfg.valW (Config.freeValue (s.draws + 2)) := rfl
@[simp] theorem State.raiseNoMatch_decBits (s : State) : (s.raiseNoMatch).decBits = trunc s.cfg.cntW (Config.freeValue (s.draws + 3)) := rfl
@[simp] theorem State.raiseNoMatch_encValue (s : State) : (s.raiseNoMatch).encValue = s.encValue := rfl
@[simp] theorem State.raiseNoMatch_encBits (s : State) : (s.raiseNoMatch).encBits = s.encBits := rfl
@[simp] theorem State.raiseNoMatch_estate (s : State) : (s.raiseNoMatch).estate = s.estate := rfl
@[simp] theorem State.raiseNoMatch_bitIdx (s : State) : (s.raiseNoMatch).bitIdx = s.bitIdx := rfl
@[simp] theorem State.raiseNoMatch_out (s : State) : (s.raiseNoMatch).out = s.out := rfl
@[simp] theorem State.raiseNoMatch_outLen (s : State) : (s.raiseNoMatch).outLen = s.outLen := rfl
@[simp] theorem State.raiseNoMatch_encDone (s : State) : (s.raiseNoMatch).encDone = s.encDone := rfl
@[simp] theorem State.raiseNoMatch_encErr (s : State) : (s.raiseNoMatch).encErr = s.encErr := rfl
@[simp] theorem State.raiseNoMatch_matchOut (s : State) : (s.raiseNoMatch).matchOut = s.matchOut := rfl
@[simp] theorem State.raiseNoMatch_draws (s : State) : (s.raiseNoMatch).draws = s.draws + 4 := rfl
@[simp] theorem State.raiseNoMatch_moves (s : State) : (s.raiseNoMatch).moves = s.moves := rfl
@[simp] theorem State.raiseNoMatch_sched (s : State) : (s.raiseNoMatch).sched = s.sched := rfl

/-! EncPrecondition (R204). -/

@[simp] theorem State.raiseEncPrecondition_cfg (s : State) : (s.raiseEncPrecondition).cfg = s.cfg := rfl
@[simp] theorem State.raiseEncPrecondition_raw (s : State) : (s.raiseEncPrecondition).raw = s.raw := rfl
@[simp] theorem State.raiseEncPrecondition_rawLen (s : State) : (s.raiseEncPrecondition).rawLen = s.rawLen := rfl
@[simp] theorem State.raiseEncPrecondition_ofs (s : State) : (s.raiseEncPrecondition).ofs = s.ofs := rfl
@[simp] theorem State.raiseEncPrecondition_data (s : State) : (s.raiseEncPrecondition).data = s.data := rfl
@[simp] theorem State.raiseEncPrecondition_dstate (s : State) : (s.raiseEncPrecondition).dstate = s.dstate := rfl
@[simp] theorem State.raiseEncPrecondition_decDone (s : State) : (s.raiseEncPrecondition).decDone = s.decDone := rfl
@[simp] theorem State.raiseEncPrecondition_decMatch (s : State) : (s.raiseEncPrecondition).decMatch = s.decMatch := rfl
@[simp] theorem State.raiseEncPrecondition_decValue (s : State) : (s.raiseEncPrecondition).decValue = s.decValue := rfl
@[simp] theorem State.raiseEncPrecondition_decBits (s : State) : (s.raiseEncPrecondition).decBits = s.decBits := rfl
@[simp] theorem State.raiseEncPrecondition_encValue (s : State) : (s.raiseEncPrecondition).encValue = s.encValue := rfl
@[simp] theorem State.raiseEncPrecondition_encBits (s : State) : (s.raiseEncPrecondition).encBits = s.encBits := rfl
@[simp] theorem State.raiseEncPrecondition_estate (s : State) : (s.raiseEncPrecondition).estate = .idle := rfl
@[simp] theorem State.raiseEncPrecondition_bitIdx (s : State) : (s.raiseEncPrecondition).bitIdx = s.bitIdx := rfl
@[simp] theorem State.raiseEncPrecondition_out (s : State) : (s.raiseEncPrecondition).out = s.out := rfl
@[simp] theorem State.raiseEncPrecondition_outLen (s : State) : (s.raiseEncPrecondition).outLen = 0 := rfl
@[simp] theorem State.raiseEncPrecondition_encDone (s : State) : (s.raiseEncPrecondition).encDone = true := rfl
@[simp] theorem State.raiseEncPrecondition_encErr (s : State) : (s.raiseEncPrecondition).encErr = true := rfl
@[simp] theorem State.raiseEncPrecondition_matchOut (s : State) : (s.raiseEncPrecondition).matchOut = s.matchOut := rfl
@[simp] theorem State.raiseEncPrecondition_draws (s : State) : (s.raiseEncPrecondition).draws = s.draws := rfl
@[simp] theorem State.raiseEncPrecondition_moves (s : State) : (s.raiseEncPrecondition).moves = s.moves := rfl
@[simp] theorem State.raiseEncPrecondition_sched (s : State) : (s.raiseEncPrecondition).sched = s.sched := rfl

/-! an accepted pair (R148). -/

@[simp] theorem State.acceptBit_cfg (s : State) (b : Bool) : (s.acceptBit b).cfg = s.cfg := rfl
@[simp] theorem State.acceptBit_raw (s : State) (b : Bool) : (s.acceptBit b).raw = s.raw := rfl
@[simp] theorem State.acceptBit_rawLen (s : State) (b : Bool) : (s.acceptBit b).rawLen = s.rawLen := rfl
@[simp] theorem State.acceptBit_ofs (s : State) (b : Bool) : (s.acceptBit b).ofs = s.ofs + 2 := rfl
@[simp] theorem State.acceptBit_data (s : State) (b : Bool) : (s.acceptBit b).data = s.shiftIn b := rfl
@[simp] theorem State.acceptBit_dstate (s : State) (b : Bool) : (s.acceptBit b).dstate = s.dstate := rfl
@[simp] theorem State.acceptBit_decDone (s : State) (b : Bool) : (s.acceptBit b).decDone = s.decDone := rfl
@[simp] theorem State.acceptBit_decMatch (s : State) (b : Bool) : (s.acceptBit b).decMatch = s.decMatch := rfl
@[simp] theorem State.acceptBit_decValue (s : State) (b : Bool) : (s.acceptBit b).decValue = s.decValue := rfl
@[simp] theorem State.acceptBit_decBits (s : State) (b : Bool) : (s.acceptBit b).decBits = s.decBits := rfl
@[simp] theorem State.acceptBit_encValue (s : State) (b : Bool) : (s.acceptBit b).encValue = s.encValue := rfl
@[simp] theorem State.acceptBit_encBits (s : State) (b : Bool) : (s.acceptBit b).encBits = s.encBits := rfl
@[simp] theorem State.acceptBit_estate (s : State) (b : Bool) : (s.acceptBit b).estate = s.estate := rfl
@[simp] theorem State.acceptBit_bitIdx (s : State) (b : Bool) : (s.acceptBit b).bitIdx = s.bitIdx := rfl
@[simp] theorem State.acceptBit_out (s : State) (b : Bool) : (s.acceptBit b).out = s.out := rfl
@[simp] theorem State.acceptBit_outLen (s : State) (b : Bool) : (s.acceptBit b).outLen = s.outLen := rfl
@[simp] theorem State.acceptBit_encDone (s : State) (b : Bool) : (s.acceptBit b).encDone = s.encDone := rfl
@[simp] theorem State.acceptBit_encErr (s : State) (b : Bool) : (s.acceptBit b).encErr = s.encErr := rfl
@[simp] theorem State.acceptBit_matchOut (s : State) (b : Bool) : (s.acceptBit b).matchOut = s.matchOut := rfl
@[simp] theorem State.acceptBit_draws (s : State) (b : Bool) : (s.acceptBit b).draws = s.draws := rfl
@[simp] theorem State.acceptBit_moves (s : State) (b : Bool) : (s.acceptBit b).moves = s.moves := rfl
@[simp] theorem State.acceptBit_sched (s : State) (b : Bool) : (s.acceptBit b).sched = s.sched := rfl

/-! the loop exit (R144). -/

@[simp] theorem State.loopExit_cfg (s : State) : (s.loopExit).cfg = s.cfg := rfl
@[simp] theorem State.loopExit_raw (s : State) : (s.loopExit).raw = s.raw := rfl
@[simp] theorem State.loopExit_rawLen (s : State) : (s.loopExit).rawLen = s.rawLen := rfl
@[simp] theorem State.loopExit_ofs (s : State) : (s.loopExit).ofs = s.ofs := rfl
@[simp] theorem State.loopExit_data (s : State) : (s.loopExit).data = s.data := rfl
@[simp] theorem State.loopExit_dstate (s : State) : (s.loopExit).dstate = .fin := rfl
@[simp] theorem State.loopExit_decDone (s : State) : (s.loopExit).decDone = s.decDone := rfl
@[simp] theorem State.loopExit_decMatch (s : State) : (s.loopExit).decMatch = s.decMatch := rfl
@[simp] theorem State.loopExit_decValue (s : State) : (s.loopExit).decValue = s.decValue := rfl
@[simp] theorem State.loopExit_decBits (s : State) : (s.loopExit).decBits = s.decBits := rfl
@[simp] theorem State.loopExit_encValue (s : State) : (s.loopExit).encValue = s.encValue := rfl
@[simp] theorem State.loopExit_encBits (s : State) : (s.loopExit).encBits = s.encBits := rfl
@[simp] theorem State.loopExit_estate (s : State) : (s.loopExit).estate = s.estate := rfl
@[simp] theorem State.loopExit_bitIdx (s : State) : (s.loopExit).bitIdx = s.bitIdx := rfl
@[simp] theorem State.loopExit_out (s : State) : (s.loopExit).out = s.out := rfl
@[simp] theorem State.loopExit_outLen (s : State) : (s.loopExit).outLen = s.outLen := rfl
@[simp] theorem State.loopExit_encDone (s : State) : (s.loopExit).encDone = s.encDone := rfl
@[simp] theorem State.loopExit_encErr (s : State) : (s.loopExit).encErr = s.encErr := rfl
@[simp] theorem State.loopExit_matchOut (s : State) : (s.loopExit).matchOut = s.matchOut := rfl
@[simp] theorem State.loopExit_draws (s : State) : (s.loopExit).draws = s.draws := rfl
@[simp] theorem State.loopExit_moves (s : State) : (s.loopExit).moves = s.moves := rfl
@[simp] theorem State.loopExit_sched (s : State) : (s.loopExit).sched = s.sched := rfl

/-! Match (R151). -/

@[simp] theorem State.finishMatch_cfg (s : State) : (s.finishMatch).cfg = s.cfg := rfl
@[simp] theorem State.finishMatch_raw (s : State) : (s.finishMatch).raw = s.raw := rfl
@[simp] theorem State.finishMatch_rawLen (s : State) : (s.finishMatch).rawLen = s.rawLen := rfl
@[simp] theorem State.finishMatch_ofs (s : State) : (s.finishMatch).ofs = trunc s.cfg.idxW (Config.freeValue s.draws) :=
  rfl
@[simp] theorem State.finishMatch_data (s : State) : (s.finishMatch).data = trunc s.cfg.valW (Config.freeValue (s.draws + 1)) :=
  rfl
@[simp] theorem State.finishMatch_dstate (s : State) : (s.finishMatch).dstate = .idle := rfl
@[simp] theorem State.finishMatch_decDone (s : State) : (s.finishMatch).decDone = true := rfl
@[simp] theorem State.finishMatch_decMatch (s : State) : (s.finishMatch).decMatch = true := rfl
@[simp] theorem State.finishMatch_decValue (s : State) : (s.finishMatch).decValue = s.data := rfl
@[simp] theorem State.finishMatch_decBits (s : State) : (s.finishMatch).decBits = s.bitCount := rfl
@[simp] theorem State.finishMatch_encValue (s : State) : (s.finishMatch).encValue = s.encValue := rfl
@[simp] theorem State.finishMatch_encBits (s : State) : (s.finishMatch).encBits = s.encBits := rfl
@[simp] theorem State.finishMatch_estate (s : State) : (s.finishMatch).estate = s.estate := rfl
@[simp] theorem State.finishMatch_bitIdx (s : State) : (s.finishMatch).bitIdx = s.bitIdx := rfl
@[simp] theorem State.finishMatch_out (s : State) : (s.finishMatch).out = s.out := rfl
@[simp] theorem State.finishMatch_outLen (s : State) : (s.finishMatch).outLen = s.outLen := rfl
@[simp] theorem State.finishMatch_encDone (s : State) : (s.finishMatch).encDone = s.encDone := rfl
@[simp] theorem State.finishMatch_encErr (s : State) : (s.finishMatch).encErr = s.encErr := rfl
@[simp] theorem State.finishMatch_matchOut (s : State) : (s.finishMatch).matchOut = s.matchOut := rfl
@[simp] theorem State.finishMatch_draws (s : State) : (s.finishMatch).draws = s.draws + 2 := rfl
@[simp] theorem State.finishMatch_moves (s : State) : (s.finishMatch).moves = s.moves := rfl
@[simp] theorem State.finishMatch_sched (s : State) : (s.finishMatch).sched = s.sched := rfl

/-! the end of an ENCODE (R184, R185). -/

@[simp] theorem State.finishEncode_cfg (s : State) : (s.finishEncode).cfg = s.cfg := rfl
@[simp] theorem State.finishEncode_raw (s : State) : (s.finishEncode).raw = s.raw := rfl
@[simp] theorem State.finishEncode_rawLen (s : State) : (s.finishEncode).rawLen = s.rawLen := rfl
@[simp] theorem State.finishEncode_ofs (s : State) : (s.finishEncode).ofs = s.ofs := rfl
@[simp] theorem State.finishEncode_data (s : State) : (s.finishEncode).data = s.data := rfl
@[simp] theorem State.finishEncode_dstate (s : State) : (s.finishEncode).dstate = s.dstate := rfl
@[simp] theorem State.finishEncode_decDone (s : State) : (s.finishEncode).decDone = s.decDone := rfl
@[simp] theorem State.finishEncode_decMatch (s : State) : (s.finishEncode).decMatch = s.decMatch := rfl
@[simp] theorem State.finishEncode_decValue (s : State) : (s.finishEncode).decValue = s.decValue := rfl
@[simp] theorem State.finishEncode_decBits (s : State) : (s.finishEncode).decBits = s.decBits := rfl
@[simp] theorem State.finishEncode_encValue (s : State) : (s.finishEncode).encValue = s.encValue := rfl
@[simp] theorem State.finishEncode_encBits (s : State) : (s.finishEncode).encBits = s.encBits := rfl
@[simp] theorem State.finishEncode_estate (s : State) : (s.finishEncode).estate = .idle := rfl
@[simp] theorem State.finishEncode_bitIdx (s : State) : (s.finishEncode).bitIdx = s.bitIdx := rfl
@[simp] theorem State.finishEncode_out (s : State) : (s.finishEncode).out = s.out := rfl
@[simp] theorem State.finishEncode_outLen (s : State) : (s.finishEncode).outLen = s.encBits + 1 := rfl
@[simp] theorem State.finishEncode_encDone (s : State) : (s.finishEncode).encDone = true := rfl
@[simp] theorem State.finishEncode_encErr (s : State) : (s.finishEncode).encErr = false := rfl
@[simp] theorem State.finishEncode_matchOut (s : State) : (s.finishEncode).matchOut = s.matchOut := rfl
@[simp] theorem State.finishEncode_draws (s : State) : (s.finishEncode).draws = s.draws := rfl
@[simp] theorem State.finishEncode_moves (s : State) : (s.finishEncode).moves = s.moves := rfl
@[simp] theorem State.finishEncode_sched (s : State) : (s.finishEncode).sched = s.sched := rfl

/-! A start of the decoder (R141): every field but the two it may write. -/

@[simp] theorem State.startDecode_cfg (s : State) : s.startDecode.cfg = s.cfg := by unfold State.startDecode; split <;> rfl
@[simp] theorem State.startDecode_raw (s : State) : s.startDecode.raw = s.raw := by unfold State.startDecode; split <;> rfl
@[simp] theorem State.startDecode_rawLen (s : State) : s.startDecode.rawLen = s.rawLen := by unfold State.startDecode; split <;> rfl
@[simp] theorem State.startDecode_ofs (s : State) : s.startDecode.ofs = s.ofs := by unfold State.startDecode; split <;> rfl
@[simp] theorem State.startDecode_data (s : State) : s.startDecode.data = s.data := by unfold State.startDecode; split <;> rfl
@[simp] theorem State.startDecode_decMatch (s : State) : s.startDecode.decMatch = s.decMatch := by unfold State.startDecode; split <;> rfl
@[simp] theorem State.startDecode_decValue (s : State) : s.startDecode.decValue = s.decValue := by unfold State.startDecode; split <;> rfl
@[simp] theorem State.startDecode_decBits (s : State) : s.startDecode.decBits = s.decBits := by unfold State.startDecode; split <;> rfl
@[simp] theorem State.startDecode_encValue (s : State) : s.startDecode.encValue = s.encValue := by unfold State.startDecode; split <;> rfl
@[simp] theorem State.startDecode_encBits (s : State) : s.startDecode.encBits = s.encBits := by unfold State.startDecode; split <;> rfl
@[simp] theorem State.startDecode_estate (s : State) : s.startDecode.estate = s.estate := by unfold State.startDecode; split <;> rfl
@[simp] theorem State.startDecode_bitIdx (s : State) : s.startDecode.bitIdx = s.bitIdx := by unfold State.startDecode; split <;> rfl
@[simp] theorem State.startDecode_out (s : State) : s.startDecode.out = s.out := by unfold State.startDecode; split <;> rfl
@[simp] theorem State.startDecode_outLen (s : State) : s.startDecode.outLen = s.outLen := by unfold State.startDecode; split <;> rfl
@[simp] theorem State.startDecode_encDone (s : State) : s.startDecode.encDone = s.encDone := by unfold State.startDecode; split <;> rfl
@[simp] theorem State.startDecode_encErr (s : State) : s.startDecode.encErr = s.encErr := by unfold State.startDecode; split <;> rfl
@[simp] theorem State.startDecode_matchOut (s : State) : s.startDecode.matchOut = s.matchOut := by unfold State.startDecode; split <;> rfl
@[simp] theorem State.startDecode_draws (s : State) : s.startDecode.draws = s.draws := by unfold State.startDecode; split <;> rfl
@[simp] theorem State.startDecode_moves (s : State) : s.startDecode.moves = s.moves := by unfold State.startDecode; split <;> rfl
@[simp] theorem State.startDecode_sched (s : State) : s.startDecode.sched = s.sched := by unfold State.startDecode; split <;> rfl

/-! A start of the encoder (R180): every field but the two it may write. -/

@[simp] theorem State.startEncode_cfg (s : State) : s.startEncode.cfg = s.cfg := by unfold State.startEncode; split <;> rfl
@[simp] theorem State.startEncode_raw (s : State) : s.startEncode.raw = s.raw := by unfold State.startEncode; split <;> rfl
@[simp] theorem State.startEncode_rawLen (s : State) : s.startEncode.rawLen = s.rawLen := by unfold State.startEncode; split <;> rfl
@[simp] theorem State.startEncode_ofs (s : State) : s.startEncode.ofs = s.ofs := by unfold State.startEncode; split <;> rfl
@[simp] theorem State.startEncode_data (s : State) : s.startEncode.data = s.data := by unfold State.startEncode; split <;> rfl
@[simp] theorem State.startEncode_dstate (s : State) : s.startEncode.dstate = s.dstate := by unfold State.startEncode; split <;> rfl
@[simp] theorem State.startEncode_decDone (s : State) : s.startEncode.decDone = s.decDone := by unfold State.startEncode; split <;> rfl
@[simp] theorem State.startEncode_decMatch (s : State) : s.startEncode.decMatch = s.decMatch := by unfold State.startEncode; split <;> rfl
@[simp] theorem State.startEncode_decValue (s : State) : s.startEncode.decValue = s.decValue := by unfold State.startEncode; split <;> rfl
@[simp] theorem State.startEncode_decBits (s : State) : s.startEncode.decBits = s.decBits := by unfold State.startEncode; split <;> rfl
@[simp] theorem State.startEncode_encValue (s : State) : s.startEncode.encValue = s.encValue := by unfold State.startEncode; split <;> rfl
@[simp] theorem State.startEncode_encBits (s : State) : s.startEncode.encBits = s.encBits := by unfold State.startEncode; split <;> rfl
@[simp] theorem State.startEncode_bitIdx (s : State) : s.startEncode.bitIdx = s.bitIdx := by unfold State.startEncode; split <;> rfl
@[simp] theorem State.startEncode_out (s : State) : s.startEncode.out = s.out := by unfold State.startEncode; split <;> rfl
@[simp] theorem State.startEncode_outLen (s : State) : s.startEncode.outLen = s.outLen := by unfold State.startEncode; split <;> rfl
@[simp] theorem State.startEncode_encErr (s : State) : s.startEncode.encErr = s.encErr := by unfold State.startEncode; split <;> rfl
@[simp] theorem State.startEncode_matchOut (s : State) : s.startEncode.matchOut = s.matchOut := by unfold State.startEncode; split <;> rfl
@[simp] theorem State.startEncode_draws (s : State) : s.startEncode.draws = s.draws := by unfold State.startEncode; split <;> rfl
@[simp] theorem State.startEncode_moves (s : State) : s.startEncode.moves = s.moves := by unfold State.startEncode; split <;> rfl
@[simp] theorem State.startEncode_sched (s : State) : s.startEncode.sched = s.sched := by unfold State.startEncode; split <;> rfl

/-! Reset (R55, R240). -/

@[simp] theorem State.applyReset_cfg (s : State) : s.applyReset.cfg = s.cfg := rfl
@[simp] theorem State.applyReset_raw (s : State) : s.applyReset.raw = [] := rfl
@[simp] theorem State.applyReset_rawLen (s : State) : s.applyReset.rawLen = 0 := rfl
@[simp] theorem State.applyReset_ofs (s : State) : s.applyReset.ofs = 0 := rfl
@[simp] theorem State.applyReset_data (s : State) : s.applyReset.data = 0 := rfl
@[simp] theorem State.applyReset_dstate (s : State) : s.applyReset.dstate = .idle := rfl
@[simp] theorem State.applyReset_decDone (s : State) : s.applyReset.decDone = false := rfl
@[simp] theorem State.applyReset_decMatch (s : State) : s.applyReset.decMatch = false := rfl
@[simp] theorem State.applyReset_decValue (s : State) : s.applyReset.decValue = 0 := rfl
@[simp] theorem State.applyReset_decBits (s : State) : s.applyReset.decBits = 0 := rfl
@[simp] theorem State.applyReset_encValue (s : State) : s.applyReset.encValue = 0 := rfl
@[simp] theorem State.applyReset_encBits (s : State) : s.applyReset.encBits = 0 := rfl
@[simp] theorem State.applyReset_estate (s : State) : s.applyReset.estate = .idle := rfl
@[simp] theorem State.applyReset_bitIdx (s : State) : s.applyReset.bitIdx = 0 := rfl
@[simp] theorem State.applyReset_out (s : State) : s.applyReset.out = [] := rfl
@[simp] theorem State.applyReset_outLen (s : State) : s.applyReset.outLen = 0 := rfl
@[simp] theorem State.applyReset_encDone (s : State) : s.applyReset.encDone = false := rfl
@[simp] theorem State.applyReset_encErr (s : State) : s.applyReset.encErr = false := rfl
@[simp] theorem State.applyReset_matchOut (s : State) : s.applyReset.matchOut = false := rfl
@[simp] theorem State.applyReset_draws (s : State) : s.applyReset.draws = s.draws := rfl
@[simp] theorem State.applyReset_moves (s : State) : s.applyReset.moves = s.moves := rfl
@[simp] theorem State.applyReset_sched (s : State) : s.applyReset.sched = s.sched := rfl

end Sys2Proof.Machine
end

