-- ==== Sys2Proof/Laws/Step.lean ====
section
/-! SUPPORT. Everything one turn of each agent can do, said once: a turn answers next exactly in the listed cases. -/

namespace Sys2Proof.Machine

theorem State.pairRemains_iff (s : State) : s.pairRemains = true ↔ s.ofs + 2 ≤ s.rawLen := by
  simp only [State.pairRemains, decide_eq_true_eq]
  omega

/-- All that one turn of the decoder can do (R142 to R151). -/
inductive DecoderCase (s : State) : State → Prop
  | idle : s.dstate = .idle → DecoderCase s s
  | short : s.dstate = .skip → s.rawLen < 2 → DecoderCase s s.raiseNoMatch
  | lead : s.dstate = .skip → 2 ≤ s.rawLen → DecoderCase s { s with ofs := 1, dstate := .hdr }
  | noHeader (d : Nat) : s.dstate = .hdr → s.readRaw 1 = .ok d → s.cfg.matches d s.cfg.hdrMarkUs = false →
      DecoderCase s s.raiseNoMatch
  | header (d : Nat) : s.dstate = .hdr → s.readRaw 1 = .ok d → s.cfg.matches d s.cfg.hdrMarkUs = true →
      DecoderCase s { s with ofs := 2, data := 0, dstate := .bits }
  | badSpace (sp : Nat) : s.dstate = .bits → s.ofs + 2 ≤ s.rawLen → s.readRaw s.ofs = .ok sp →
      s.cfg.matches sp s.spaceHere = false → DecoderCase s s.raiseNoMatch
  | badMark (sp m : Nat) : s.dstate = .bits → s.ofs + 2 ≤ s.rawLen → s.readRaw s.ofs = .ok sp →
      s.cfg.matches sp s.spaceHere = true → s.readRaw (s.ofs + 1) = .ok m → s.cfg.bitOfMark m = none →
      DecoderCase s s.raiseNoMatch
  | bit (sp m : Nat) (b : Bool) : s.dstate = .bits → s.ofs + 2 ≤ s.rawLen → s.readRaw s.ofs = .ok sp →
      s.cfg.matches sp s.spaceHere = true → s.readRaw (s.ofs + 1) = .ok m → s.cfg.bitOfMark m = some b →
      DecoderCase s (s.acceptBit b)
  | exit : s.dstate = .bits → s.rawLen < s.ofs + 2 → DecoderCase s s.loopExit
  | badLength : s.dstate = .fin → s.lengthBad = true → DecoderCase s s.raiseNoMatch
  | done : s.dstate = .fin → s.lengthBad = false → DecoderCase s s.finishMatch

/-- The pair step, on a pair whose space has passed. -/
theorem pairStep_of_space {s : State} {sp m : Nat} (h : s.dstate = .bits) (hr : s.ofs + 2 ≤ s.rawLen)
    (hs : s.cfg.matches sp s.spaceHere = true) :
    pairStep sp m s = match s.cfg.bitOfMark m with
      | some b => .next (s.acceptBit b)
      | none => .next s.raiseNoMatch := by
  have hp := (State.pairRemains_iff s).mpr hr
  cases hb : s.cfg.bitOfMark m <;> simp [pairStep, h, hp, hs, hb]

theorem headerTurn_of_read {s : State} {d : Nat} (h : s.dstate = .hdr) (hd : s.readRaw 1 = .ok d) :
    headerTurn s = if s.cfg.matches d s.cfg.hdrMarkUs then .next { s with ofs := 2, data := 0, dstate := .bits }
      else .next s.raiseNoMatch := by
  unfold headerTurn decodeHdrm
  rw [hd]
  by_cases hm : s.cfg.matches d s.cfg.hdrMarkUs = true <;> simp [hm, runSymbol, exec, execHdrm, h]

/-- One pair turn, given what its two reads give. -/
theorem pairTurn_of_reads {s : State} {sp m : Nat} (h : s.dstate = .bits) (hr : s.ofs + 2 ≤ s.rawLen)
    (hsp : s.readRaw s.ofs = .ok sp) (hs : s.cfg.matches sp s.spaceHere = true)
    (hm : s.readRaw (s.ofs + 1) = .ok m) :
    pairTurn s = match s.cfg.bitOfMark m with
      | some b => .next (s.acceptBit b)
      | none => .next s.raiseNoMatch := by
  have hs' : s.cfg.matches sp (s.cfg.expectedSpace s.ofs) = true := hs
  unfold pairTurn decodeSpace decodeMark
  rw [hsp]
  simp only [hs', if_true, hm]
  rcases hb : s.cfg.bitOfMark m with _ | b
  · rfl
  · cases b <;> simp [runSymbol, exec, execSbit0, execSbit1, pairStep_of_space h hr hs, hb]

theorem pairTurn_of_badSpace {s : State} {sp : Nat} (hsp : s.readRaw s.ofs = .ok sp)
    (hs : s.cfg.matches sp s.spaceHere = false) : pairTurn s = .next s.raiseNoMatch := by
  have hs' : s.cfg.matches sp (s.cfg.expectedSpace s.ofs) = false := hs
  unfold pairTurn decodeSpace
  rw [hsp]
  simp [hs']

/-- A turn of the decoder answers next exactly in the listed cases. -/
theorem decoderTurn_iff {s t : State} : decoderTurn s = .next t ↔ DecoderCase s t := by
  constructor
  · intro h
    unfold decoderTurn at h
    split at h
    · rename_i hd; cases h; exact .idle hd
    · rename_i hd
      simp only [exec, execLead, hd, if_true] at h
      split at h
      · rename_i hl; cases h; exact .short hd hl
      · rename_i hl; cases h; exact .lead hd (by omega)
    · rename_i hd
      rcases hr : s.readRaw 1 with f | d
      · simp [headerTurn, hr] at h
      · rw [headerTurn_of_read hd hr] at h
        split at h
        · rename_i hm; cases h; exact .header d hd hr hm
        · rename_i hm; cases h; exact .noHeader d hd hr (by simpa using hm)
    · rename_i hd
      split at h
      · rename_i hp
        have hp := (State.pairRemains_iff s).mp hp
        rcases hr : s.readRaw s.ofs with f | sp
        · simp [pairTurn, hr] at h
        · cases hs : s.cfg.matches sp s.spaceHere
          · rw [pairTurn_of_badSpace hr hs] at h
            cases h
            exact .badSpace sp hd hp hr hs
          · rcases hm : s.readRaw (s.ofs + 1) with f | m
            · have hs' : s.cfg.matches sp (s.cfg.expectedSpace s.ofs) = true := hs
              simp [pairTurn, hr, decodeSpace, hs', hm] at h
            · rw [pairTurn_of_reads hd hp hr hs hm] at h
              split at h
              · rename_i b hb; cases h; exact .bit sp m b hd hp hr hs hm hb
              · rename_i hb; cases h; exact .badMark sp m hd hp hr hs hm hb
      · rename_i hp
        rw [State.pairRemains_iff] at hp
        cases h
        exact .exit hd (by omega)
    · rename_i hd
      unfold State.finalize at h
      split at h
      · rename_i hl; cases h; exact .badLength hd hl
      · rename_i hl; cases h; exact .done hd (by simpa using hl)
  · intro h
    unfold decoderTurn
    cases h with
    | idle hd => rw [hd]
    | short hd hl => simp [hd, exec, execLead, hl]
    | lead hd hl => simp [hd, exec, execLead, show ¬ s.rawLen < 2 by omega]
    | noHeader d hd hr hm => simp [hd, headerTurn_of_read hd hr, hm]
    | header d hd hr hm => simp [hd, headerTurn_of_read hd hr, hm]
    | badSpace sp hd hp hr hs => simp [hd, (State.pairRemains_iff s).mpr hp, pairTurn_of_badSpace hr hs]
    | badMark sp m hd hp hr hs hm hb =>
      simp [hd, (State.pairRemains_iff s).mpr hp, pairTurn_of_reads hd hp hr hs hm, hb]
    | bit sp m b hd hp hr hs hm hb =>
      simp [hd, (State.pairRemains_iff s).mpr hp, pairTurn_of_reads hd hp hr hs hm, hb]
    | exit hd hp =>
      have : s.pairRemains = false := by
        rw [← Bool.not_eq_true, State.pairRemains_iff]; omega
      simp [hd, this]
    | badLength hd hl => simp [hd, State.finalize, hl]
    | done hd hl => simp [hd, State.finalize, hl]

/-- All that one turn of the encoder can do (R181 to R185). -/
inductive EncoderCase (s : State) : State → Prop
  | idle : s.estate = .idle → EncoderCase s s
  | refuse : s.estate = .hdr → s.encBitsBad = true → EncoderCase s s.raiseEncPrecondition
  | header : s.estate = .hdr → s.encBitsBad = false →
      EncoderCase s { s with out := s.out.write 0 s.cfg.hdrPair, bitIdx := s.encBits - 1, estate := .bits }
  | bit : s.estate = .bits → s.bitIdx ≠ 0 → s.nextIndex < s.cfg.outCap →
      EncoderCase s { s with out := s.out.write s.nextIndex (s.cfg.bitPair s.nextBit), bitIdx := s.bitIdx - 1 }
  | last : s.estate = .bits → s.bitIdx = 0 → s.nextIndex < s.cfg.outCap →
      EncoderCase s { s with out := s.out.write s.nextIndex (s.cfg.bitPair s.nextBit) }.finishEncode

theorem writeOut_of_lt {s : State} {k : Nat} (q : Pulse) (h : k < s.cfg.outCap) :
    s.writeOut k q = .ok { s with out := s.out.write k q } := State.writeOut_ok.mpr ⟨h, rfl⟩

theorem writeOut_of_le {s : State} {k : Nat} (q : Pulse) (h : s.cfg.outCap ≤ k) :
    s.writeOut k q = .error .outIndexOutside := by simp [State.writeOut, h]

/-- In E_BITS the symbol emitted is the one the next bit selects, and its meaning is one emission (R183). -/
theorem exec_emitted {s : State} (h : s.estate = .bits) : exec s.emitted s = emitBit s.nextBit s := by
  unfold State.emitted
  cases hb : s.nextBit <;> simp [exec, execBit0, execBit1, h, hb]

/-- A turn of the encoder answers next exactly in the listed cases. -/
theorem encoderTurn_iff {s t : State} : encoderTurn s = .next t ↔ EncoderCase s t := by
  have h0 : 0 < s.cfg.outCap := Nat.succ_pos _
  constructor
  · intro h
    unfold encoderTurn at h
    split at h
    · rename_i he; cases h; exact .idle he
    · rename_i he
      simp only [exec, execHdr, he, if_true, writeOut_of_lt _ h0] at h
      split at h
      · rename_i hb; cases h; exact .refuse he hb
      · rename_i hb; cases h; exact .header he (by simpa using hb)
    · rename_i he
      rw [exec_emitted he, emitBit] at h
      by_cases hk : s.nextIndex < s.cfg.outCap
      · rw [writeOut_of_lt _ hk] at h
        simp only at h
        split at h
        · rename_i hi; cases h; exact .last he hi hk
        · rename_i hi; cases h; exact .bit he hi hk
      · rw [writeOut_of_le _ (by omega)] at h
        cases h
  · intro h
    unfold encoderTurn
    cases h with
    | idle he => rw [he]
    | refuse he hb => simp [he, exec, execHdr, hb]
    | header he hb => simp [he, exec, execHdr, hb, writeOut_of_lt _ h0]
    | bit he hi hk => simp [he, exec_emitted he, emitBit, writeOut_of_lt _ hk, hi]
    | last he hi hk => simp [he, exec_emitted he, emitBit, writeOut_of_lt _ hk, hi]

/-- What a guarded write of RAW or RAW_LEN can do. -/
theorem guardRaw_next {s t u : State} {b : Bool} (h : guardRaw s b t = .next u) :
    s.dstate = .idle ∧ b = true ∧ u = t := by
  unfold guardRaw at h
  split at h
  · cases h
  · rename_i hd
    split at h
    · rename_i hb; cases h; exact ⟨by simpa [State.decBusy] using hd, hb, rfl⟩
    · cases h

/-- What a guarded write of ENC_VALUE or ENC_BITS can do. -/
theorem guardEnc_next {s t u : State} {b : Bool} (h : guardEnc s b t = .next u) :
    s.estate = .idle ∧ b = true ∧ u = t := by
  unfold guardEnc at h
  split at h
  · cases h
  · rename_i hd
    split at h
    · rename_i hb; cases h; exact ⟨by simpa [State.encBusy] using hd, hb, rfl⟩
    · cases h

theorem guardRaw_of_legal {s t : State} {b : Bool} (hd : s.dstate = .idle) (hb : b = true) :
    guardRaw s b t = .next t := by simp [guardRaw, State.decBusy, hd, hb]

theorem guardEnc_of_legal {s t : State} {b : Bool} (hd : s.estate = .idle) (hb : b = true) :
    guardEnc s b t = .next t := by simp [guardEnc, State.encBusy, hd, hb]

/-- All that one move of the host can do to the block and to the host's list (R57, R106, R108, R240). -/
inductive HostCase (s : State) : State → Prop
  | same : HostCase s s
  | startDec : HostCase s s.startDecode
  | startEnc : HostCase s s.startEncode
  | startBoth : HostCase s s.startDecode.startEncode
  | raw (i : Nat) (e : Nat) : s.dstate = .idle → i < s.cfg.rawCap → e < 2 ^ s.cfg.durW →
      HostCase s { s with raw := s.raw.write i e }
  | rawLen (n : Nat) : s.dstate = .idle → n ≤ s.cfg.rawCap → HostCase s { s with rawLen := n }
  | capture (es : List Nat) (n : Nat) : s.dstate = .idle → es.length ≤ s.cfg.rawCap → (∀ e ∈ es, e < 2 ^ s.cfg.durW) →
      HostCase s { s with raw := s.raw.writeList 0 es, rawLen := es.length, draws := n }
  | encValue (v : Nat) : s.estate = .idle → v < 2 ^ s.cfg.valW → HostCase s { s with encValue := v }
  | encBits (n : Nat) : s.estate = .idle → n < 2 ^ s.cfg.cntW → HostCase s { s with encBits := n }
  | operands (v n : Nat) : s.estate = .idle → v < 2 ^ s.cfg.valW → n < 2 ^ s.cfg.cntW →
      HostCase s { s with encValue := v, encBits := n }
  | wait (m : HostMove) : HostCase s { s with moves := m :: s.moves }
  | reset : HostCase s s.applyReset

/-- What loading a capture can do (R108). -/
theorem loadCapture_next {s t : State} {es : List Nat} (h : loadCapture es s = .next t) :
    s.dstate = .idle ∧ es.length ≤ s.cfg.rawCap ∧ (∀ e ∈ es, e < 2 ^ s.cfg.durW) ∧
      t = { s with raw := s.raw.writeList 0 es, rawLen := es.length } := by
  obtain ⟨hd, hb, rfl⟩ := guardRaw_next h
  simp only [Bool.and_eq_true, decide_eq_true_eq, List.all_eq_true, fits] at hb
  exact ⟨hd, hb.1, hb.2, rfl⟩

/-- With the decoder idle, a capture that has its place in RAW is loaded. -/
theorem loadCapture_of_legal {s : State} {es : List Nat} (hd : s.dstate = .idle) (hl : es.length ≤ s.cfg.rawCap)
    (he : ∀ e ∈ es, e < 2 ^ s.cfg.durW) :
    loadCapture es s = .next { s with raw := s.raw.writeList 0 es, rawLen := es.length } :=
  guardRaw_of_legal hd (by simpa [hl, fits] using he)

theorem State.freeNum_lt (s : State) (w tag : Nat) : s.freeNum w tag < 2 ^ w := Nat.mod_lt _ (Nat.two_pow_pos w)

/-- A pair of OUT that is valid is read as it stands (R70). -/
theorem State.seenOut_of_valid {s : State} {k : Nat} {q : Pulse} (hd : s.encDone = true) (hk : k < s.outLen)
    (hq : s.out.read k = some q) : s.seenOut k = q := by
  simp [State.seenOut, hd, hk, hq]

/-- A pair read before ENC_DONE = 1 is free inside DUR_W (R246). -/
theorem State.seenOut_lt_of_notDone {s : State} (hd : s.encDone = false) (k : Nat) :
    (s.seenOut k).mark < 2 ^ s.cfg.durW ∧ (s.seenOut k).space < 2 ^ s.cfg.durW := by
  simp [State.seenOut, hd, State.freeNum_lt]

/-- After ENC_DONE = 1 a LOOPBACK takes the train that OUT and OUT_LEN hold (R108). -/
theorem State.loopTrain_of_done {s : State} {t : List Pulse} (tail : Bool) (hd : s.encDone = true) (h : s.HoldsTrain t) :
    s.loopTrain tail = t := by
  have hlen : s.loopLen tail = t.length := by rw [State.loopLen, if_pos hd, h.1]
  apply List.ext_getElem
  · simp [State.loopTrain, hlen]
  · intro k h1 h2
    simp only [State.loopTrain, List.getElem_map, List.getElem_range]
    exact State.seenOut_of_valid hd (h.1 ▸ h2) (by rw [h.2 k h2, List.getElem?_eq_getElem h2])

/-- Before ENC_DONE = 1 a LOOPBACK takes no more pairs than both buffers have room for. -/
theorem State.loopLen_le_of_notDone {s : State} (tail : Bool) (hd : s.encDone = false) :
    s.loopLen tail ≤ loopMax s.cfg tail := by
  rw [State.loopLen, hd]
  exact Nat.lt_succ_iff.mp (Nat.mod_lt _ (Nat.succ_pos _))

theorem flattenPulses_length (t : List Pulse) : (flattenPulses t).length = 2 * t.length := by
  induction t with
  | nil => rfl
  | cons q t ih => simp [flattenPulses, ih]; omega

/-- A duration of a train's flat form is a mark or a space of one of its pairs. -/
theorem mem_flattenPulses {t : List Pulse} {e : Nat} (h : e ∈ flattenPulses t) : ∃ q ∈ t, e = q.mark ∨ e = q.space := by
  induction t with
  | nil => simp [flattenPulses] at h
  | cons q t ih =>
    simp only [flattenPulses, List.mem_cons] at h
    rcases h with h | h | h
    · exact ⟨q, by simp, .inl h⟩
    · exact ⟨q, by simp, .inr h⟩
    · obtain ⟨r, hr, he⟩ := ih h
      exact ⟨r, List.mem_cons_of_mem _ hr, he⟩

/-- A duration of a train's capture is the gap, or a mark or a space of one of its pairs. -/
theorem mem_captureOf {g e : Nat} {tail : Bool} {t : List Pulse} (h : e ∈ captureOf g tail t) :
    e = g ∨ ∃ q ∈ t, e = q.mark ∨ e = q.space := by
  have h' : e ∈ toCapture g t := by
    unfold captureOf at h
    split at h
    · exact h
    · exact List.mem_of_mem_dropLast h
  rcases List.mem_cons.mp h' with h' | h'
  · exact .inl h'
  · exact .inr (mem_flattenPulses h')

theorem captureOf_length (g : Nat) (tail : Bool) (t : List Pulse) :
    (captureOf g tail t).length = if tail then 2 * t.length + 1 else 2 * t.length := by
  unfold captureOf
  split <;> simp [toCapture, toCaptureNoTail, flattenPulses_length]

/-- A host move that answers next did one of the listed things. -/
theorem hostMove_next {m : HostMove} {s t : State} (h : hostMove m s = .next t) : HostCase s t := by
  cases m with
  | cmd w =>
    simp only [hostMove, runCommand] at h
    split at h
    · rename_i i hi
      rcases decodeCmd_ok.mp hi with ⟨-, rfl⟩ | ⟨-, rfl⟩ | ⟨-, rfl⟩ | ⟨-, rfl⟩ <;>
        simp only [exec, execNop, execDecode, execEncode] at h <;> cases h
      exacts [.same, .startDec, .startEnc, .startBoth]
    · cases h
  | writeRaw i e =>
    obtain ⟨hd, hb, rfl⟩ := guardRaw_next h
    simp only [Bool.and_eq_true, decide_eq_true_eq, fits] at hb
    exact .raw i e hd hb.1 hb.2
  | writeRawLen n =>
    obtain ⟨hd, hb, rfl⟩ := guardRaw_next h
    exact .rawLen n hd (by simpa using hb)
  | loadRaw es =>
    obtain ⟨hd, hl, he, rfl⟩ := loadCapture_next h
    exact .capture es s.draws hd hl he
  | writeEncValue v =>
    obtain ⟨hd, hb, rfl⟩ := guardEnc_next h
    exact .encValue v hd (by simpa [fits] using hb)
  | writeEncBits n =>
    obtain ⟨hd, hb, rfl⟩ := guardEnc_next h
    exact .encBits n hd (by simpa [fits] using hb)
  | setEnc v n =>
    obtain ⟨hd, hb, rfl⟩ := guardEnc_next h
    simp only [Bool.and_eq_true, decide_eq_true_eq, fits] at hb
    exact .operands v n hd hb.1 hb.2
  | loopback g tail =>
    simp only [hostMove, loopBack] at h
    by_cases hn : s.encDone = true
    · rw [if_pos hn] at h
      obtain ⟨hd, hl, he, rfl⟩ := loadCapture_next h
      exact .capture _ s.draws hd hl he
    · rw [if_neg hn] at h
      obtain ⟨hd, hl, he, rfl⟩ := loadCapture_next h
      exact .capture _ (s.draws + 1) hd hl he
  | awaitDec =>
    simp only [hostMove] at h
    cases h
    split
    exacts [.same, .wait _]
  | awaitEnc =>
    simp only [hostMove] at h
    cases h
    split
    exacts [.same, .wait _]
  | reset => simp only [hostMove] at h; cases h; exact .reset

/-- A turn of the host: nothing, or one move of its list. -/
theorem hostTurn_next {s t : State} (h : hostTurn s = .next t) :
    t = s ∨ ∃ m rest, s.moves = m :: rest ∧ HostCase { s with moves := rest } t := by
  unfold hostTurn at h
  split at h
  · cases h; exact .inl rfl
  · rename_i m rest hm
    exact .inr ⟨m, rest, hm, hostMove_next h⟩

/-! ## The step -/

theorem step_of_sched {s : State} {a : Agent} {l : List Agent} (hc : s.cfg.wf = true) (h : s.sched = a :: l) :
    step s = turn a { s with sched := l } := by simp [step, hc, h]

theorem step_of_noSched {s : State} (hc : s.cfg.wf = true) (h : s.sched = []) : step s = turn s.defaultAgent s := by
  simp [step, hc, h]

/-- A step that answers next is one agent's turn, in the state whose schedule has moved on. -/
theorem step_next {s t : State} (h : step s = .next t) :
    s.cfg.wf = true ∧ ∃ a l, turn a { s with sched := l } = .next t := by
  unfold step at h
  split at h
  · rename_i hc
    refine ⟨hc, ?_⟩
    split at h
    · rename_i a l _; exact ⟨a, l, h⟩
    · rename_i hs
      refine ⟨s.defaultAgent, [], ?_⟩
      have : ({ s with sched := [] } : State) = s := by rw [← hs]
      rw [this]
      exact h
  · cases h

/-- A run of `k + 1` steps whose first step answers next. -/
theorem run_of_next {s t : State} (k : Nat) (h : step s = .next t) :
    Host.Core.run Sys2Proof.core (k + 1) s = Host.Core.run Sys2Proof.core k t := by
  have h' : Sys2Proof.core.step s = .next t := h
  simp only [Host.Core.run, h']

end Sys2Proof.Machine
end

