-- ==== Sys2Proof/Tests/Slice0.lean ====
section
/-! SUPPORT. The model's own tests: well-formedness refused check by check, decoding of words written out from the spec's
tables, one step of each instruction, picks of the spec's vectors (95_test_vectors.md), and for every statement with
hypotheses a witness that meets them. Expected results are the spec's, cited where they stand. -/

namespace Sys2Proof.Tests

open Sys2Proof Sys2Proof.Machine

/-- The outcome is a next state that passes `f`. -/
def nextSat (r : Result) (f : State → Bool) : Bool :=
  match r with
  | .next t => f t
  | .fault _ => false
  | .refused _ => false

/-- REF after reset, with the capture `es` loaded. -/
def loaded (es : List Nat) : State := { State.reset with raw := Memory.writeList [] 0 es, rawLen := es.length }

/-- The capture of the source's scenario, with its trailing space (95_test_vectors.md S1). -/
def s1 : List Nat := [50000, 2400, 600, 1200, 600, 600, 600, 1200, 600, 600, 600]

/-- The pulse train of the source's scenario (S1). -/
def s1Train : List Pulse := [⟨2400, 600⟩, ⟨1200, 600⟩, ⟨600, 600⟩, ⟨1200, 600⟩, ⟨600, 600⟩]

/-- The decoder just started on `es`. -/
def skipping (es : List Nat) : State := { loaded es with dstate := .skip }

/-- The decoder about to read RAW[1] of `es`. -/
def atHeader (es : List Nat) : State := { loaded es with dstate := .hdr, ofs := 1 }

/-- The decoder in its pair loop at index `i` of `es`, with `d` accumulated. -/
def atPair (i d : Nat) (es : List Nat) : State := { loaded es with dstate := .bits, ofs := i, data := d }

/-- The decoder about to finish at index `i`. -/
def atFin (i d : Nat) (es : List Nat) : State := { atPair i d es with dstate := .fin }

/-- The encoder just started on the value `v` and the count `n`. -/
def encoding (v n : Nat) : State := { State.reset with encValue := v, encBits := n, estate := .hdr }

/-- The encoder about to emit bit `i`, with the pairs `q` emitted so far. -/
def atBit (v n i : Nat) (q : List Pulse) : State :=
  { encoding v n with estate := .bits, bitIdx := i, out := Memory.writeList [] 0 q }

/-- The encoder after the scenario's ENCODE (S1, V40). -/
def encoded : State :=
  { State.reset with encValue := 0b1010, encBits := 4, out := Memory.writeList [] 0 s1Train, outLen := 5, encDone := true }

/-! ## Well-formedness: each check refuses an ill-formed term -/

theorem test_ref_wf : Params.ref.wf = true := by decide

/-- WF1 (R10): each of the five durations at 0, and one too wide for DUR_W. -/
theorem test_wf1 :
    Params.durationsOk { Params.ref with hdrMarkUs := 0 } = false ∧
    Params.durationsOk { Params.ref with hdrSpaceUs := 0 } = false ∧
    Params.durationsOk { Params.ref with oneMarkUs := 0 } = false ∧
    Params.durationsOk { Params.ref with zeroMarkUs := 0 } = false ∧
    Params.durationsOk { Params.ref with interSpaceUs := 0 } = false ∧
    Params.durOk .ref 4294967295 = true ∧ Params.durOk .ref 4294967296 = false := by decide

/-- R29, R32, R124: an instance that sets neither has TOL_PCT 25 and LEN_CHECK Lenient. -/
theorem test_defaults :
    let p : Params :=
      { durW := 32, valW := 32, cntW := 16, rawCap := 256, khzW := 16, carrierKhz := 38, hdrMarkUs := 2400,
        hdrSpaceUs := 600, oneMarkUs := 1200, zeroMarkUs := 600, interSpaceUs := 600, minBits := 1, maxBits := 32,
        tolFloorUs := 100, bitEncodedBy := .markWidth }
    p.tolPct = 25 ∧ p.lenCheck = .lenient ∧ p = .ref := by decide

theorem test_wf2 : Params.marksDiffer { Params.ref with zeroMarkUs := 1200 } = false := by decide

theorem test_wf3 :
    Params.carrierOk { Params.ref with carrierKhz := 0 } = false ∧
    Params.carrierOk { Params.ref with carrierKhz := 65536 } = false := by decide

/-- WF4 (R10): a zero mark of 900 lies on the edge of the one band; 899 does not. -/
theorem test_wf4 :
    Params.marksSeparable { Params.ref with zeroMarkUs := 900 } = false ∧
    Params.marksSeparable { Params.ref with zeroMarkUs := 899 } = true := by decide

theorem test_wf5 :
    Params.bitRangeOk { Params.ref with minBits := 33 } = false ∧
    Params.bitRangeOk { Params.ref with maxBits := 33 } = false := by decide

theorem test_wf6 :
    Params.toleranceOk { Params.ref with tolPct := 100 } = true ∧
    Params.toleranceOk { Params.ref with tolPct := 101 } = false ∧
    Params.toleranceOk { Params.ref with tolFloorUs := 4294967296 } = false := by decide

/-- WF7 (R9, C12, R104): VAL_W = 31 with CNT_W = 5 is the case that conflict C12 names. -/
theorem test_wf7 :
    Params.shapeOk { Params.ref with durW := 0 } = false ∧ Params.shapeOk { Params.ref with rawCap := 1 } = false ∧
    Params.shapeOk { Params.ref with khzW := 0 } = false ∧
    Params.shapeOk { Params.ref with valW := 31, cntW := 5, rawCap := 8 } = false ∧
    Params.shapeOk { Params.ref with valW := 30, cntW := 5, rawCap := 8 } = true ∧
    Params.shapeOk { Params.ref with bitEncodedBy := .spaceWidth } = false := by decide

/-- Ill-formed instructions: out of place, out of band, or too wide. -/
theorem test_instr_ill_formed :
    (Instr.matchOp 600 0).wf .ref 0 = false ∧ (Instr.matchOp 4294967296 1).wf .ref 0 = false ∧
    Instr.lead.wf .ref 1 = false ∧ (Instr.hdrm 2400).wf .ref 0 = false ∧ (Instr.hdrm 1799).wf .ref 1 = false ∧
    (Instr.sbit1 600 1200).wf .ref 3 = false ∧ (Instr.sbit1 449 1200).wf .ref 2 = false ∧
    (Instr.sbit1 600 600).wf .ref 2 = false ∧ (Instr.sbit1 600 1200).wf .ref 256 = false ∧
    (Instr.sbit0 600 1200).wf .ref 2 = false ∧ (Instr.sbit0 600 800).wf .ref 2 = false ∧
    Instr.hdr.wf .ref 1 = false ∧ Instr.bit1.wf .ref 0 = false ∧ Instr.bit1.wf .ref 33 = false ∧
    Instr.bit0.wf .ref 0 = false ∧ Instr.bit0.wf .ref 33 = false := by decide

/-! ## Decoding: words written out from R94 to R99 and R106 -/

/-- The four command words, as R106's table writes them; a third bit is no command. -/
theorem test_decode_cmd :
    decodeCode .ref 0 (.cmd 0b00) = .ok .nop ∧ decodeCode .ref 0 (.cmd 0b01) = .ok (.decode false) ∧
    decodeCode .ref 0 (.cmd 0b10) = .ok .encode ∧ decodeCode .ref 0 (.cmd 0b11) = .ok (.decode true) ∧
    decodeCode .ref 0 (.cmd 0b100) = .error .notACommandWord := ⟨rfl, rfl, rfl, rfl, rfl⟩

theorem test_decode_match :
    decodeCode .ref 0 (.func 450 600) = .ok (.matchOp 450 600) ∧
    decodeCode .ref 0 (.func 450 0) = .error .expectedZero := ⟨rfl, rfl⟩

/-- LEAD takes anything at index 0; HDRM takes 1800 to 3000 at index 1 (R94, R95, R126). -/
theorem test_decode_lead_hdrm :
    decodeCode .ref 0 (.rx [0]) = .ok .lead ∧ decodeCode .ref 0 (.rx [4294967295]) = .ok .lead ∧
    decodeCode .ref 1 (.rx [1800]) = .ok (.hdrm 1800) ∧ decodeCode .ref 1 (.rx [3000]) = .ok (.hdrm 3000) ∧
    decodeCode .ref 1 (.rx [1799]) = .error .notHeaderMark ∧
    decodeCode .ref 1 (.rx [3001]) = .error .notHeaderMark ∧
    decodeCode .ref 2 (.rx [600]) = .error .noSymbolHere := ⟨rfl, rfl, rfl, rfl, rfl, rfl, rfl⟩

/-- Pairs: space before mark (R90), bands of R126, the last pair of RAW_CAP = 256. -/
theorem test_decode_pairs :
    decodeCode .ref 2 (.rx [450, 900]) = .ok (.sbit1 450 900) ∧
    decodeCode .ref 254 (.rx [750, 1500]) = .ok (.sbit1 750 1500) ∧
    decodeCode .ref 4 (.rx [450, 450]) = .ok (.sbit0 450 450) ∧
    decodeCode .ref 4 (.rx [750, 750]) = .ok (.sbit0 750 750) ∧
    decodeCode .ref 4 (.rx [449, 600]) = .error .spaceMismatch ∧
    decodeCode .ref 4 (.rx [600, 751]) = .error .unknownMark ∧
    decodeCode .ref 3 (.rx [600, 600]) = .error .noSymbolHere ∧
    decodeCode .ref 256 (.rx [600, 600]) = .error .noSymbolHere := ⟨rfl, rfl, rfl, rfl, rfl, rfl, rfl, rfl⟩

/-- V69: index 2 is checked against HDR_SPACE_US, index 4 against INTER_SPACE_US. -/
theorem test_decode_header_space :
    decodeRx { Params.ref with hdrSpaceUs := 900 } 2 [675, 1200] = .ok (.sbit1 675 1200) ∧
    decodeRx { Params.ref with hdrSpaceUs := 900 } 2 [600, 1200] = .error .spaceMismatch ∧
    decodeRx { Params.ref with hdrSpaceUs := 900 } 4 [900, 600] = .error .spaceMismatch := ⟨rfl, rfl, rfl⟩

/-- V70: a mark in both bands is a one. -/
theorem test_decode_overlap :
    decodeRx { Params.ref with oneMarkUs := 1000, zeroMarkUs := 700 } 2 [600, 749] = .ok (.sbit0 600 749) ∧
    decodeRx { Params.ref with oneMarkUs := 1000, zeroMarkUs := 700 } 2 [600, 750] = .ok (.sbit1 600 750) ∧
    decodeRx { Params.ref with oneMarkUs := 1000, zeroMarkUs := 700 } 2 [600, 875] = .ok (.sbit1 600 875) ∧
    decodeRx { Params.ref with oneMarkUs := 1000, zeroMarkUs := 700 } 2 [600, 1251] = .error .unknownMark :=
  ⟨rfl, rfl, rfl, rfl⟩

/-- TX pairs: mark before space, exact values (R90, R99). -/
theorem test_decode_tx :
    decodeCode .ref 0 (.tx ⟨2400, 600⟩) = .ok .hdr ∧ decodeCode .ref 1 (.tx ⟨1200, 600⟩) = .ok .bit1 ∧
    decodeCode .ref 32 (.tx ⟨600, 600⟩) = .ok .bit0 ∧
    decodeCode .ref 1 (.tx ⟨1201, 600⟩) = .error .notAnEmittedPair ∧
    decodeCode .ref 0 (.tx ⟨1200, 600⟩) = .error .notAnEmittedPair ∧
    decodeCode .ref 33 (.tx ⟨600, 600⟩) = .error .noSymbolHere := ⟨rfl, rfl, rfl, rfl, rfl, rfl⟩

/-! ## One step of each instruction -/

theorem test_nop : nextSat (exec .nop (skipping s1)) (fun t => decide (t = skipping s1)) = true := by decide

/-- R141: DEC_DONE cleared, D_SKIP; a busy decoder drops the start (R106). -/
theorem test_decode :
    nextSat (exec (.decode false) { loaded s1 with decDone := true })
      (fun t => decide (t.dstate = .skip) && !t.decDone && decide (t.estate = .idle)) = true ∧
    nextSat (exec (.decode false) (atHeader s1)) (fun t => decide (t = atHeader s1)) = true := by decide

theorem test_decode_and_encode :
    nextSat (exec (.decode true) (loaded s1)) (fun t => decide (t.dstate = .skip) && decide (t.estate = .hdr)) = true := by
  decide

theorem test_encode :
    nextSat (exec .encode encoded) (fun t => decide (t.estate = .hdr) && !t.encDone && decide (t.outLen = 5)) = true ∧
    nextSat (exec .encode (atBit 10 4 3 [])) (fun t => decide (t = atBit 10 4 3 [])) = true := by decide

/-- V1, V2. -/
theorem test_match :
    nextSat (exec (.matchOp 450 600) .reset) (·.matchOut) = true ∧
    nextSat (exec (.matchOp 449 600) .reset) (!·.matchOut) = true := by decide

theorem test_lead : nextSat (exec .lead (skipping s1)) (fun t => decide (t = atHeader s1)) = true := by decide

/-- V36: one element gives NoMatch. -/
theorem test_lead_short :
    nextSat (exec .lead (skipping [2400])) (fun t => decide (t.dstate = .idle) && t.decDone && !t.decMatch) = true := by
  decide

theorem test_hdrm :
    nextSat (exec (.hdrm 2400) { atHeader s1 with data := 77 })
      (fun t => decide (t.ofs = 2) && decide (t.data = 0) && decide (t.dstate = .bits)) = true := by decide

/-- V21. -/
theorem test_hdrm_mismatch :
    nextSat (exec (.hdrm 1799) (atHeader s1)) (fun t => decide (t.dstate = .idle) && t.decDone && !t.decMatch) = true := by
  decide

/-- P1's trace: at OFS 6 with DATA 2, a one pair gives DATA 5 and OFS 8. -/
theorem test_sbit1 :
    nextSat (exec (.sbit1 600 1200) (atPair 6 2 s1)) (fun t => decide (t = atPair 8 5 s1)) = true := by decide

/-- R148: bit 31 is shifted out, the one enters bit 0. -/
theorem test_sbit1_wraps :
    nextSat (exec (.sbit1 600 1200) (atPair 6 0x80000000 s1)) (fun t => decide (t.data = 1)) = true := by decide

/-- P1's trace: at OFS 4 with DATA 1, a zero pair gives DATA 2 and OFS 6. -/
theorem test_sbit0 :
    nextSat (exec (.sbit0 600 600) (atPair 4 1 s1)) (fun t => decide (t = atPair 6 2 s1)) = true := by decide

/-- V29: 899 lies in neither band. -/
theorem test_pair_unknown_mark :
    nextSat (exec (.sbit0 600 899) (atPair 4 1 s1)) (fun t => decide (t.dstate = .idle) && t.decDone && !t.decMatch) =
      true := by decide

theorem test_hdr :
    nextSat (exec .hdr (encoding 0b1010 4)) (fun t => decide (t = atBit 0b1010 4 3 [⟨2400, 600⟩])) = true := by decide

/-- V50, V51. -/
theorem test_hdr_refused :
    nextSat (exec .hdr (encoding 5 0)) (fun t => t.encErr && t.encDone && decide (t.outLen = 0) && decide (t.out = [])) =
      true ∧
    nextSat (exec .hdr (encoding 5 33)) (fun t => t.encErr && t.encDone && decide (t.estate = .idle)) = true := by decide

theorem test_bit1 :
    nextSat (exec .bit1 (atBit 0b1010 4 1 (s1Train.take 3)))
      (fun t => decide (t = atBit 0b1010 4 0 (s1Train.take 4))) = true := by decide

/-- V40: the last bit of 0b1010 is a zero; OUT_LEN is 5. -/
theorem test_bit0_last :
    nextSat (exec .bit0 (atBit 0b1010 4 0 (s1Train.take 4)))
      (fun t => decide (t = { encoded with bitIdx := 0 })) = true := by decide

/-- A decoder turn reads RAW itself: the pair at OFS 2 of S1 is a one. -/
theorem test_decoder_turn :
    nextSat (decoderTurn (atPair 2 0 s1)) (fun t => decide (t = atPair 4 1 s1)) = true := by decide

/-- R144: with one element left the loop ends. -/
theorem test_decoder_exit :
    nextSat (decoderTurn (atPair 10 10 s1)) (fun t => decide (t = atFin 10 10 s1)) = true := by decide

/-- S1: the final step reports Match(10, 4). -/
theorem test_decoder_final :
    nextSat (decoderTurn (atFin 10 10 s1))
      (fun t => t.decMatch && t.decDone && decide (t.decValue = 10) && decide (t.decBits = 4)) = true := by decide

/-- The first instruction after reset, from a placed word (R106, R242). -/
theorem test_placed_decode :
    nextSat (step (State.reset.withFetchWord 8 0b01)) (fun t => decide (t.dstate = .skip) && decide (t.moves = [])) =
      true := by decide

/-- LOOPBACK 50000 after the scenario's ENCODE loads S1's capture (P1). -/
theorem test_loopback :
    nextSat (hostMove (.loopback 50000 true) encoded) (fun t => decide (t.raw = (loaded s1).raw) && decide (t.rawLen = 11)) =
      true := by decide

/-- After a refused ENCODE the train is empty: the capture with the tail is the gap alone (R78, R204), and without the tail
it is empty, the model's choice of log entry 25. -/
theorem test_loopback_empty :
    nextSat (hostMove (.loopback 9 true) { State.reset with encDone := true, encErr := true })
      (fun t => decide (t.raw = [(0, 9)]) && decide (t.rawLen = 1)) = true ∧
    nextSat (hostMove (.loopback 9 false) { State.reset with encDone := true, encErr := true })
      (fun t => decide (t.rawLen = 0)) = true := by decide

theorem test_reset_memory_wf : State.reset.raw.wf = true ∧ State.reset.out.wf = true := by decide

/-! ## Picks of the spec's vectors -/

/-- V1 to V12, at REF. -/
theorem test_match_ref :
    [(450, 600), (750, 600), (900, 1200), (1500, 1200), (1800, 2400), (3000, 2400)].all
      (fun c => Params.ref.matches c.1 c.2) = true ∧
    [(449, 600), (751, 600), (899, 1200), (1501, 1200), (1799, 2400), (3001, 2400)].any
      (fun c => Params.ref.matches c.1 c.2) = false := by decide

/-- V14, V16 to V19. -/
theorem test_match_floor :
    [(299, 399), (499, 399), (301, 401), (501, 401), (303, 404), (505, 404), (0, 1), (101, 1), (0, 100), (200, 100)].all
      (fun c => Params.ref.matches c.1 c.2) = true ∧
    [(298, 399), (500, 399), (300, 401), (502, 401), (302, 404), (506, 404), (102, 1), (201, 100), (0, 101)].any
      (fun c => Params.ref.matches c.1 c.2) = false := by decide

/-- V34, V39, V33, V27, V66. -/
theorem test_decode_frames :
    Params.ref.decodeFrame [7, 1800, 750, 900, 450, 750, 750, 1500, 450, 450, 99999] = some (10, 4) ∧
    Params.ref.decodeFrame [0, 2400, 5] = some (0, 0) ∧
    Params.ref.decodeFrame [0, 2400, 600, 800, 1, 1, 1, 1] = none ∧
    Params.ref.decodeFrame [0, 2400, 600, 1200, 449, 600] = none ∧
    Params.ref.decodeFrame (toCapture 0 (⟨2400, 600⟩ :: ⟨1200, 600⟩ :: List.replicate 32 ⟨600, 600⟩)) = some (0, 33) := by
  decide

/-- V60: the scenario's capture cut to its first k elements. -/
theorem test_truncations :
    (List.range 12).map (fun k => Params.ref.decodeFrame (s1.take k)) =
      [none, none, some (0, 0), some (0, 0), some (1, 1), some (1, 1), some (2, 2), some (2, 2), some (5, 3), some (5, 3),
        some (10, 4), some (10, 4)] := by decide

/-- V61, V62, V64: Strict. -/
theorem test_strict :
    Params.decodeFrame { Params.ref with lenCheck := .strict, minBits := 4, maxBits := 4 } s1 = some (10, 4) ∧
    Params.decodeFrame { Params.ref with lenCheck := .strict, minBits := 4, maxBits := 4 } (s1.take 9) = none ∧
    Params.decodeFrame { Params.ref with lenCheck := .strict } [0, 2400] = none := by decide

/-- V40, V41, V44, V48, V50, V51. -/
theorem test_encode_frames :
    Params.ref.encodeFrame 0b1010 4 = some s1Train ∧
    (Params.ref.encodeFrame 0b1011 4).map (·.map (·.mark)) = some [2400, 1200, 600, 1200, 1200] ∧
    Params.ref.encodeFrame 0 1 = some [⟨2400, 600⟩, ⟨600, 600⟩] ∧
    (Params.ref.encodeFrame 0xF5 4).map (·.map (·.mark)) = some [2400, 600, 1200, 600, 1200] ∧
    Params.ref.encodeFrame 5 0 = none ∧ Params.ref.encodeFrame 5 33 = none := by decide

/-! ## Witnesses: for each statement with hypotheses, a state and operands that meet them -/

/-- A state of the pair loop in which both engines are busy. -/
def bothBusy : State := { atPair 4 1 s1 with encValue := 0b1010, encBits := 4, estate := .hdr }

theorem inv_loaded : (loaded s1).Inv := by constructor <;> decide
theorem inv_skipping : (skipping s1).Inv := by constructor <;> decide
theorem inv_atHeader : (atHeader s1).Inv := by constructor <;> decide
theorem inv_atPair : (atPair 4 1 s1).Inv := by constructor <;> decide
theorem inv_atFin : (atFin 10 10 s1).Inv := by constructor <;> decide
theorem inv_encoding : (encoding 10 4).Inv := by constructor <;> decide
theorem inv_atBit : (atBit 10 4 1 (s1Train.take 3)).Inv := by constructor <;> decide
theorem inv_encoded : encoded.Inv := by constructor <;> decide
theorem inv_bothBusy : bothBusy.Inv := by constructor <;> decide

theorem written_s1 : ∀ i < (loaded s1).rawLen, ((loaded s1).raw.read i).isSome = true := by decide

theorem holds_s1 : (loaded s1).HoldsCapture s1 := ⟨by decide, by decide⟩

/-- Every constructor, at places and values on the edge of what its encoding admits. -/
theorem witness_DecodeOfEncodeIsIdentity :
    Params.ref.wf = true ∧ Instr.nop.wf .ref 0 = true ∧ (Instr.decode false).wf .ref 0 = true ∧
    (Instr.decode true).wf .ref 0 = true ∧ Instr.encode.wf .ref 0 = true ∧
    (Instr.matchOp 4294967295 1).wf .ref 0 = true ∧ Instr.lead.wf .ref 0 = true ∧ (Instr.hdrm 1800).wf .ref 1 = true ∧
    (Instr.sbit1 450 900).wf .ref 2 = true ∧ (Instr.sbit1 750 1500).wf .ref 254 = true ∧
    (Instr.sbit0 450 450).wf .ref 2 = true ∧ (Instr.sbit0 750 750).wf .ref 254 = true ∧ Instr.hdr.wf .ref 0 = true ∧
    Instr.bit1.wf .ref 1 = true ∧ Instr.bit1.wf .ref 32 = true ∧ Instr.bit0.wf .ref 1 = true ∧
    Instr.bit0.wf .ref 32 = true := by decide

theorem witness_DecodedCodeHasOneMeaning :
    Params.ref.wf = true ∧ (Code.rx [450, 900]).fitsIn .ref = true ∧
    decodeCode .ref 2 (.rx [450, 900]) = .ok (.sbit1 450 900) ∧ (Code.rx [4294967295]).fitsIn .ref = true ∧
    decodeCode .ref 0 (.rx [4294967295]) = .ok .lead := ⟨by decide, by decide, rfl, by decide, rfl⟩

theorem witness_ReceivedSymbolsAreSelectedByPosition :
    Params.ref.pairPos 2 = true ∧ Params.ref.pairPos 254 = true ∧ Params.ref.pairPos 1 = false ∧
    Params.ref.pairPos 3 = false ∧ Params.ref.pairPos 255 = false ∧ Params.ref.pairPos 256 = false := by decide

theorem witness_MatcherAcceptsExactlyTheBand : State.reset.cfg = Params.ref := rfl

theorem witness_MatcherIsMonotoneAndConvex :
    (Params.ref.tolPct ≤ Params.tolPct { Params.ref with tolPct := 26 } ∧
      Params.ref.tolFloorUs ≤ Params.tolFloorUs { Params.ref with tolPct := 26 } ∧ Params.ref.matches 450 600 = true) ∧
    (450 ≤ 600 ∧ 600 ≤ 750 ∧ Params.ref.matches 450 600 = true ∧ Params.ref.matches 750 600 = true) ∧
    (Params.tolPct { Params.ref with tolPct := 0, tolFloorUs := 0 } = 0 ∧
      Params.tolFloorUs { Params.ref with tolPct := 0, tolFloorUs := 0 } = 0) := by decide

theorem witness_CommandsStartIdleEnginesOnly :
    State.reset.dstate = .idle ∧ State.reset.estate = .idle ∧ bothBusy.dstate ≠ .idle ∧ bothBusy.estate ≠ .idle := by
  decide

theorem witness_LeadPassesOverTheFirstElement :
    ((skipping [0, 0]).dstate = .skip ∧ 2 ≤ (skipping [0, 0]).rawLen) ∧
    ((skipping [0]).dstate = .skip ∧ (skipping [0]).rawLen < 2) := by decide

theorem witness_HeaderMarkInItsBandIsAccepted :
    ((atHeader [0, 1800]).dstate = .hdr ∧ (atHeader [0, 1800]).cfg.matches 1800 (atHeader [0, 1800]).cfg.hdrMarkUs = true ∧
      (atHeader [0, 1800]).readRaw 1 = .ok 1800) ∧
    ((atHeader [0, 3000]).cfg.matches 3000 (atHeader [0, 3000]).cfg.hdrMarkUs = true ∧
      (atHeader [0, 3000]).readRaw 1 = .ok 3000) := ⟨⟨rfl, rfl, rfl⟩, rfl, rfl⟩

theorem witness_HeaderMarkMismatchRaisesNoMatch :
    ((atHeader [0, 1799]).dstate = .hdr ∧ (atHeader [0, 1799]).cfg.matches 1799 (atHeader [0, 1799]).cfg.hdrMarkUs = false ∧
      (atHeader [0, 1799]).readRaw 1 = .ok 1799) ∧
    ((atHeader [0, 3001]).cfg.matches 3001 (atHeader [0, 3001]).cfg.hdrMarkUs = false ∧
      (atHeader [0, 3001]).readRaw 1 = .ok 3001) := ⟨⟨rfl, rfl, rfl⟩, rfl, rfl⟩

/-- Both clauses, at the edges of their bands, with exactly two elements left. -/
theorem witness_SelectedPairShiftsInItsBit :
    (atPair 2 0 [0, 2400, 450, 900]).dstate = .bits ∧
    (atPair 2 0 [0, 2400, 450, 900]).ofs + 2 ≤ (atPair 2 0 [0, 2400, 450, 900]).rawLen ∧
    Params.ref.matches 450 600 = true ∧ Params.ref.matches 900 1200 = true ∧
    Params.ref.matches 750 1200 = false ∧ Params.ref.matches 750 600 = true := by decide

theorem witness_MarkWidthAloneDecidesTheBit :
    (atPair 2 0 [0, 2400, 450, 900]).dstate = .bits ∧
    (atPair 2 0 [0, 2400, 450, 900]).ofs + 2 ≤ (atPair 2 0 [0, 2400, 450, 900]).rawLen ∧
    (atPair 2 0 [0, 2400, 450, 900]).readRaw 2 = .ok 450 ∧ (atPair 2 0 [0, 2400, 450, 900]).readRaw 3 = .ok 900 ∧
    Params.ref.matches 450 600 = true := ⟨rfl, by decide, rfl, rfl, by decide⟩

/-- The mark at index 3 has not been written. -/
theorem witness_SpaceMismatchRaisesNoMatchBeforeTheMark :
    let s : State := { atPair 2 0 [0, 2400, 449] with rawLen := 4 }
    s.dstate = .bits ∧ s.ofs + 2 ≤ s.rawLen ∧ s.readRaw s.ofs = .ok 449 ∧ s.readRaw 3 = .error .rawUnwritten ∧
      s.cfg.matches 449 (if s.ofs = 2 then s.cfg.hdrSpaceUs else s.cfg.interSpaceUs) = false :=
  ⟨rfl, by decide, rfl, rfl, rfl⟩

theorem witness_LeftOverElementIsNeverRead :
    ((atPair 10 10 s1).dstate = .bits ∧ (atPair 10 10 s1).rawLen < (atPair 10 10 s1).ofs + 2) ∧
    ((atPair 10 10 (s1.take 10)).dstate = .bits ∧
      (atPair 10 10 (s1.take 10)).rawLen < (atPair 10 10 (s1.take 10)).ofs + 2) := by decide

theorem witness_FinalStepReportsMatchOrLength : (atFin 10 10 s1).dstate = .fin := rfl

theorem witness_NoMatchHasItsOneEffect : (atFin 10 10 s1).raiseNoMatch = (atFin 10 10 s1).raiseNoMatch := rfl

/-- One turn that goes on, and one that raises NoMatch. -/
theorem witness_NoMatchComesExactlyFromItsCauses :
    ((atPair 2 0 s1).dstate ≠ .idle ∧ decoderTurn (atPair 2 0 s1) = .next (atPair 4 1 s1)) ∧
    ((skipping [0]).dstate ≠ .idle ∧ decoderTurn (skipping [0]) = .next (skipping [0]).raiseNoMatch) :=
  ⟨⟨by decide, rfl⟩, by decide, rfl⟩

/-- The final step's configuration with Strict and a minimum of 5 bits, which S1 misses by one. -/
def strictFin : State :=
  { atFin 10 10 s1 with cfg := { Params.ref with lenCheck := .strict, minBits := 5 } }

/-- Each row of R153, in its order, after the idle turn. -/
theorem witness_DecoderTransfersAreTheTabledOnes :
    State.reset.dstate = .idle ∧ decoderTurn .reset = .next .reset ∧
    decoderTurn (skipping [0, 0]) = .next (atHeader [0, 0]) ∧
    decoderTurn (skipping [0]) = .next (skipping [0]).raiseNoMatch ∧
    decoderTurn (atHeader [0, 1800]) = .next (atPair 2 0 [0, 1800]) ∧
    decoderTurn (atHeader [0, 1799]) = .next (atHeader [0, 1799]).raiseNoMatch ∧
    decoderTurn (atPair 2 0 s1) = .next (atPair 4 1 s1) ∧
    decoderTurn (atPair 2 0 [0, 2400, 449, 1200]) = .next (atPair 2 0 [0, 2400, 449, 1200]).raiseNoMatch ∧
    decoderTurn (atPair 2 0 [0, 2400, 450, 899]) = .next (atPair 2 0 [0, 2400, 450, 899]).raiseNoMatch ∧
    decoderTurn (atPair 10 10 s1) = .next (atFin 10 10 s1) ∧
    decoderTurn (atFin 10 10 s1) = .next (atFin 10 10 s1).finishMatch ∧
    decoderTurn strictFin = .next strictFin.raiseNoMatch := ⟨rfl, rfl, rfl, rfl, rfl, rfl, rfl, rfl, rfl, rfl, rfl, rfl⟩

theorem witness_OffsetOnlyMovesForward :
    ((skipping s1).Inv ∧ (skipping s1).dstate ≠ .idle ∧ decoderTurn (skipping s1) = .next (atHeader s1) ∧
      (atHeader s1).dstate ≠ .idle) ∧
    ((atHeader s1).Inv ∧ decoderTurn (atHeader s1) = .next (atPair 2 0 s1) ∧ (atPair 2 0 s1).dstate ≠ .idle) ∧
    ((atPair 4 1 s1).Inv ∧ (atPair 4 1 s1).dstate ≠ .idle ∧ decoderTurn (atPair 4 1 s1) = .next (atPair 6 2 s1) ∧
      (atPair 6 2 s1).dstate ≠ .idle) :=
  ⟨⟨inv_skipping, by decide, rfl, by decide⟩, ⟨inv_atHeader, rfl, by decide⟩, inv_atPair, by decide, rfl, by decide⟩

theorem witness_DecoderTouchesOnlyItsOwnRegisters :
    decoderTurn (atPair 4 1 s1) = .next (atPair 6 2 s1) ∧ exec .lead (skipping s1) = .next (atHeader s1) ∧
    exec (.hdrm 3000) (atHeader s1) = .next (atPair 2 0 s1) ∧
    exec (.sbit1 600 1200) (atPair 6 2 s1) = .next (atPair 8 5 s1) ∧
    exec (.sbit0 600 600) (atPair 4 1 s1) = .next (atPair 6 2 s1) := ⟨rfl, rfl, rfl, rfl, rfl⟩

theorem witness_DecoderNeverStopsOnAWrittenCapture : (atPair 4 1 s1).Inv ∧ (atPair 4 1 s1).CaptureWritten :=
  ⟨inv_atPair, written_s1⟩

theorem witness_LeadingElementIsNeverRead :
    (atPair 4 1 s1).Inv ∧ decoderTurn (atPair 4 1 s1) = .next (atPair 6 2 s1) := ⟨inv_atPair, rfl⟩

/-- The scenario's capture takes eight steps (P1); the encoder takes a turn in between. -/
def decodeRun : State :=
  { skipping s1 with sched := [.decoder, .encoder, .decoder, .decoder, .decoder, .decoder, .decoder, .decoder, .decoder] }

theorem witness_DecodeComputesTheFrameFunction :
    decodeRun.Inv ∧ decodeRun.dstate = .skip ∧ decodeRun.HoldsCapture s1 ∧ (∀ a ∈ decodeRun.sched, a ≠ Agent.host) ∧
    4 + (decodeRun.rawLen - 2) / 2 ≤ decodeRun.sched.count .decoder :=
  ⟨by constructor <;> decide, rfl, ⟨by decide, by decide⟩, by decide, by decide⟩

/-- The other instance holds stale values and has another schedule. -/
def decodeRun' : State :=
  { skipping s1 with
    data := 77, ofs := 9, decMatch := true, decValue := 5, decBits := 3, sched := List.replicate 8 .decoder }

/-- What both runs end in, but for what they do not touch. -/
def decodeEnd (s : State) : State := State.finishMatch { s with ofs := 10, data := 10, sched := [] }

theorem witness_DecodeDependsOnCaptureAndConfigurationOnly :
    decodeRun.Inv ∧ decodeRun'.Inv ∧ decodeRun.cfg = decodeRun'.cfg ∧ decodeRun.dstate = .skip ∧
    decodeRun'.dstate = .skip ∧ decodeRun.HoldsCapture s1 ∧ decodeRun'.HoldsCapture s1 ∧
    (∀ a ∈ decodeRun.sched, a ≠ Agent.host) ∧ (∀ a ∈ decodeRun'.sched, a ≠ Agent.host) ∧
    4 + (decodeRun.rawLen - 2) / 2 ≤ decodeRun.sched.count .decoder ∧
    4 + (decodeRun'.rawLen - 2) / 2 ≤ decodeRun'.sched.count .decoder ∧
    Sys2Proof.core.run decodeRun.sched.length decodeRun = .next (decodeEnd decodeRun) ∧
    Sys2Proof.core.run decodeRun'.sched.length decodeRun' = .next (decodeEnd decodeRun') :=
  ⟨by constructor <;> decide, by constructor <;> decide, rfl, rfl, rfl, ⟨by decide, by decide⟩, ⟨by decide, by decide⟩,
    by decide, by decide, by decide, by decide, rfl, rfl⟩

/-- V34: every element on the edge of its band. -/
theorem witness_ToleratedFrameDecodesToItsBits :
    Params.ref.matches 1800 Params.ref.hdrMarkUs = true ∧
    ([⟨750, 900⟩, ⟨450, 750⟩] : List Pulse).length = [false, true].length ∧
    (∀ k q, ([⟨900, 750⟩, ⟨750, 450⟩] : List Pulse)[k]? = some q →
      Params.ref.matches q.space (if k = 0 then Params.ref.hdrSpaceUs else Params.ref.interSpaceUs) = true ∧
        Params.ref.bitOfMark q.mark = [true, false][k]?) ∧
    Params.ref.lengthOk 2 = true := by
  refine ⟨by decide, by decide, ?_, by decide⟩
  intro k q h
  match k, h with
  | 0, h => cases h; decide
  | 1, h => cases h; decide
  | k + 2, h => simp at h

theorem witness_TrailingSpaceIsIgnored : 2 ≤ (s1.take 10).length ∧ (s1.take 10).length % 2 = 0 := by decide

theorem witness_TruncatedFrameYieldsItsFirstBits :
    Params.ref.lenCheck = .lenient ∧ 4 ≤ Params.ref.valW ∧ (s1.take 10).length = 2 * 4 + 2 ∧ 0 ≤ 4 ∧ 4 ≤ 4 ∧
    Params.ref.decodeFrame (s1.take 10) = some (10, 4) := by decide

theorem witness_EncodedFrameHasTheTabledLayout : Params.ref.encodeFrame 0b1010 4 = some s1Train := by decide

theorem witness_HighValueBitsAreIgnored : 0xF5 % 2 ^ 4 = 5 % 2 ^ 4 := by decide

/-- In Lenient mode, and in Strict mode with the count in range. -/
theorem witness_RoundTripWithoutJitter :
    (Params.ref.wf = true ∧ Params.ref.encodeFrame 0b1010 4 = some s1Train ∧ Params.ref.lengthOk 4 = true) ∧
    (Params.wf { Params.ref with lenCheck := .strict } = true ∧
      Params.encodeFrame { Params.ref with lenCheck := .strict } 0b1010 4 = some s1Train ∧
      Params.lengthOk { Params.ref with lenCheck := .strict } 4 = true) := by decide

theorem witness_BothLoopBackCapturesDecodeAlike : s1Train ≠ [] := by decide

theorem witness_HeaderPairIsEmittedFirst :
    ((encoding 1 1).estate = .hdr ∧ 1 ≤ (encoding 1 1).encBits ∧ (encoding 1 1).encBits ≤ (encoding 1 1).cfg.valW) ∧
    (1 ≤ (encoding 1 32).encBits ∧ (encoding 1 32).encBits ≤ (encoding 1 32).cfg.valW) := by decide

theorem witness_EncoderRefusesBadCounts :
    (encoding 5 0).estate = .hdr ∧ (encoding 5 0).encBits < 1 ∧
    (encoding 5 33).estate = .hdr ∧ (encoding 5 33).cfg.valW < (encoding 5 33).encBits := by decide

/-- The first of 32 bits, and the last of one. -/
theorem witness_EachDataBitEmitsItsPair :
    ((atBit 1 32 31 []).estate = .bits ∧ (atBit 1 32 31 []).bitIdx < (atBit 1 32 31 []).encBits ∧
      (atBit 1 32 31 []).encBits ≤ (atBit 1 32 31 []).cfg.valW ∧ 0 < (atBit 1 32 31 []).bitIdx) ∧
    ((atBit 1 1 0 []).estate = .bits ∧ (atBit 1 1 0 []).bitIdx < (atBit 1 1 0 []).encBits ∧
      (atBit 1 1 0 []).encBits ≤ (atBit 1 1 0 []).cfg.valW ∧ (atBit 1 1 0 []).bitIdx = 0) := by decide

theorem witness_LastBitCompletesTheEncode :
    (atBit 0b1010 4 0 (s1Train.take 4)).estate = .bits ∧ (atBit 0b1010 4 0 (s1Train.take 4)).bitIdx = 0 ∧
    encoderTurn (atBit 0b1010 4 0 (s1Train.take 4)) = .next encoded := ⟨rfl, rfl, rfl⟩

theorem witness_EncoderTouchesOnlyItsOwnRegisters :
    encoderTurn (encoding 10 4) = .next (atBit 10 4 3 [⟨2400, 600⟩]) ∧
    exec .hdr (encoding 10 4) = .next (atBit 10 4 3 [⟨2400, 600⟩]) ∧
    exec .bit1 (atBit 10 4 1 (s1Train.take 3)) = .next (atBit 10 4 0 (s1Train.take 4)) ∧
    exec .bit0 (atBit 10 4 2 (s1Train.take 2)) = .next (atBit 10 4 1 (s1Train.take 3)) := ⟨rfl, rfl, rfl, rfl⟩

theorem witness_EncoderNeverStops : (atBit 10 4 1 (s1Train.take 3)).Inv := inv_atBit

/-- A good count and a refused one, each with just enough turns. -/
theorem witness_EncodeComputesTheFrameFunction :
    let s : State := { encoding 1 1 with sched := [.encoder, .decoder, .encoder] }
    let u : State := { encoding 5 0 with sched := [.encoder] }
    (s.Inv ∧ s.CaptureWritten ∧ s.estate = .hdr ∧ (∀ a ∈ s.sched, a ≠ Agent.host) ∧
      1 + s.encBits ≤ s.sched.count .encoder) ∧
    (u.Inv ∧ u.CaptureWritten ∧ u.estate = .hdr ∧ (∀ a ∈ u.sched, a ≠ Agent.host) ∧
      1 + u.encBits ≤ u.sched.count .encoder) :=
  ⟨⟨by constructor <;> decide, fun i h => absurd h (Nat.not_lt_zero i), rfl, by decide, by decide⟩,
    by constructor <;> decide, fun i h => absurd h (Nat.not_lt_zero i), rfl, by decide, by decide⟩

theorem witness_EnginesCommute :
    decoderTurn bothBusy = .next { bothBusy with ofs := 6, data := 2 } ∧
    encoderTurn bothBusy =
      .next { bothBusy with out := [(0, ⟨2400, 600⟩)], bitIdx := 3, estate := .bits } := ⟨rfl, rfl⟩

/-- Both ways for the host to be next, with a command word and with a wait. -/
theorem witness_StepRunsTheCommandWord :
    let s : State := { State.reset with moves := [.cmd 0b11], sched := [.host] }
    let v : State := { State.reset with moves := [.awaitDec] }
    (s.cfg.wf = true ∧ s.moves = [.cmd 0b11] ∧ decodeCmd 0b11 = .ok (.decode true) ∧
      ∃ l, s.sched = .host :: l ∧ { State.reset with moves := [] } = { s with moves := [], sched := l }) ∧
    (v.cfg.wf = true ∧ v.moves = [.awaitDec] ∧
      (v.sched = [] ∧ v.dstate = .idle ∧ v.estate = .idle ∧ State.reset = { v with moves := [] })) :=
  ⟨⟨by decide, rfl, rfl, [], rfl, rfl⟩, by decide, rfl, rfl, rfl, rfl, rfl⟩

/-- R108: a wait whose flag is 0 stays at the head, and one whose flag is 1 is over. -/
theorem test_await :
    nextSat (step { State.reset with moves := [.awaitDec] }) (fun t => decide (t.moves = [.awaitDec])) = true ∧
    nextSat (step { encoded with moves := [.awaitEnc] }) (fun t => decide (t.moves = [])) = true := by decide

theorem witness_PlacedWordRunsNext :
    State.reset.cfg.wf = true ∧ decodeTableWord 8 0b00 = some .nop ∧ decodeTableWord 8 0b11 = some (.decode true) := by
  decide

/-- All three clauses. -/
theorem witness_StepRunsTheReceivedSymbol :
    let s : State := { skipping s1 with sched := [.decoder] }
    let h : State := { atHeader s1 with sched := [.decoder] }
    let b : State := { atPair 2 0 s1 with sched := [.decoder] }
    (s.cfg.wf = true ∧ s.sched = [.decoder] ∧ s.dstate = .skip) ∧
    (h.sched = [.decoder] ∧ h.dstate = .hdr ∧ h.readRaw 1 = .ok 2400 ∧ decodeRx h.cfg 1 [2400] = .ok (.hdrm 2400)) ∧
    (b.sched = [.decoder] ∧ b.dstate = .bits ∧ b.ofs + 2 ≤ b.rawLen ∧ b.readRaw b.ofs = .ok 600 ∧
      b.readRaw (b.ofs + 1) = .ok 1200 ∧ decodeRx b.cfg b.ofs [600, 1200] = .ok (.sbit1 600 1200)) :=
  ⟨⟨by decide, rfl, rfl⟩, ⟨rfl, rfl, rfl, rfl⟩, rfl, rfl, by decide, rfl, rfl, rfl⟩

/-- All three clauses. -/
theorem witness_StepRunsTheEmittedSymbol :
    let s : State := { encoding 10 4 with sched := [.encoder] }
    let b : State := { atBit 10 4 3 [] with sched := [.encoder] }
    let z : State := { atBit 10 4 2 [] with sched := [.encoder] }
    (s.cfg.wf = true ∧ s.sched = [.encoder] ∧ s.estate = .hdr) ∧
    (b.sched = [.encoder] ∧ b.estate = .bits ∧ b.encValue.testBit b.bitIdx = true) ∧
    (z.sched = [.encoder] ∧ z.estate = .bits ∧ z.encValue.testBit z.bitIdx = false) := by decide

/-- Each clause, the pair clause in both ways. -/
theorem witness_SymbolsOutOfPlaceAreRefused :
    State.reset.dstate ≠ .skip ∧ State.reset.dstate ≠ .hdr ∧ State.reset.dstate ≠ .bits ∧
    (atPair 10 10 s1).rawLen < (atPair 10 10 s1).ofs + 2 ∧ State.reset.estate ≠ .hdr ∧ State.reset.estate ≠ .bits ∧
    (atBit 10 4 2 []).encValue.testBit (atBit 10 4 2 []).bitIdx = false ∧
    (atBit 10 4 3 []).encValue.testBit (atBit 10 4 3 []).bitIdx = true := by decide

theorem witness_EngineStepsAreNeverRefused :
    State.Inv { bothBusy with sched := [.decoder] } ∧ Agent.decoder ≠ .host ∧
    State.Inv { bothBusy with sched := [.encoder] } ∧ Agent.encoder ≠ .host :=
  ⟨by constructor <;> decide, by decide, by constructor <;> decide, by decide⟩

theorem witness_LoadedCaptureIsHeld :
    (State.reset.dstate = .idle ∧ s1.length ≤ State.reset.cfg.rawCap ∧ ∀ e ∈ s1, e < 2 ^ State.reset.cfg.durW) ∧
    (List.replicate 256 4294967295).length ≤ State.reset.cfg.rawCap :=
  ⟨by decide, by rw [List.length_replicate]; decide⟩

theorem witness_HostWritesReachTheirRegister :
    State.reset.dstate = .idle ∧ State.reset.estate = .idle ∧ 255 < State.reset.cfg.rawCap ∧
    4294967295 < 2 ^ State.reset.cfg.durW ∧ 256 ≤ State.reset.cfg.rawCap ∧ 4294967295 < 2 ^ State.reset.cfg.valW ∧
    65535 < 2 ^ State.reset.cfg.cntW := by decide

theorem witness_WritesWhileBusyHaveNoMeaning :
    bothBusy.dstate ≠ .idle ∧ bothBusy.estate ≠ .idle ∧
    (∃ i e, HostMove.writeRaw 0 1 = .writeRaw i e) ∧ (∃ g tail, HostMove.loopback 9 true = .loopback g tail) ∧
    (∃ v, HostMove.writeEncValue 0 = .writeEncValue v) :=
  ⟨by decide, by decide, ⟨0, 1, rfl⟩, ⟨9, true, rfl⟩, 0, rfl⟩

/-- Both clauses, the second with the widest gap. -/
theorem witness_LoopBackLoadsTheEncodedTrain :
    (encoded.dstate = .idle ∧ encoded.encDone = true ∧ encoded.HoldsTrain s1Train ∧
      s1 = (if true then toCapture 50000 s1Train else toCaptureNoTail 50000 s1Train) ∧
      s1.length ≤ encoded.cfg.rawCap ∧ (∀ e ∈ s1, e < 2 ^ encoded.cfg.durW)) ∧
    (State.reset.cfg.wf = true ∧ State.reset.dstate = .idle ∧ State.reset.encDone = false ∧
      4294967295 < 2 ^ State.reset.cfg.durW) :=
  ⟨⟨rfl, rfl, ⟨by decide, by decide⟩, by decide, by decide, by decide⟩, by decide, rfl, rfl, by decide⟩

theorem witness_ValidReadsGiveTheRegister :
    ({ atFin 10 10 s1 with dstate := .idle, decDone := true, decMatch := true } : State).decDone = true ∧
    ({ atFin 10 10 s1 with dstate := .idle, decDone := true, decMatch := true } : State).decMatch = true ∧
    encoded.encDone = true ∧ 4 < encoded.outLen ∧ 4 < encoded.cfg.outCap ∧ encoded.out.read 4 = some ⟨600, 600⟩ ∧
    10 < (loaded s1).cfg.rawCap ∧ (loaded s1).raw.read 10 = some 600 := by decide

theorem witness_ResetLeavesTheTabledValues : State.reset = State.resetOf .ref := rfl

/-- Reset in the middle of both operations. -/
theorem witness_ResetAbandonsOperations : hostMove .reset bothBusy = .next bothBusy.applyReset := rfl

theorem witness_ResetMeetsTheInvariant : Params.ref.wf = true := by decide

/-- A step of each agent. -/
theorem witness_StepKeepsTheInvariant :
    (State.Inv { bothBusy with sched := [.decoder] } ∧
      step { bothBusy with sched := [.decoder] } = .next { bothBusy with ofs := 6, data := 2 }) ∧
    (State.Inv { State.reset with moves := [.cmd 1] } ∧
      step { State.reset with moves := [.cmd 1] } = .next { State.reset with dstate := .skip }) :=
  ⟨⟨by constructor <;> decide, rfl⟩, by constructor <;> decide, rfl⟩

theorem witness_ConfigurationNeverChanges :
    step { bothBusy with sched := [.encoder] } =
      .next { bothBusy with out := [(0, ⟨2400, 600⟩)], bitIdx := 3, estate := .bits } := rfl

/-- Each cause, at the boundary value. -/
theorem witness_IllFormedInstanceTakesNoStep :
    Params.bitEncodedBy { Params.ref with bitEncodedBy := .spaceWidth } = .spaceWidth ∧
    2 ^ Params.durW .ref ≤ Params.hdrMarkUs { Params.ref with hdrMarkUs := 4294967296 } ∧
    2 ^ Params.khzW .ref ≤ Params.carrierKhz { Params.ref with carrierKhz := 65536 } ∧
    Params.matches { Params.ref with zeroMarkUs := 900 } 900 1200 = true ∧
    Params.maxBits { Params.ref with maxBits := 0 } < Params.minBits { Params.ref with maxBits := 0 } ∧
    Params.valW { Params.ref with maxBits := 33 } < Params.maxBits { Params.ref with maxBits := 33 } ∧
    100 < Params.tolPct { Params.ref with tolPct := 101 } ∧
    2 ^ Params.durW .ref ≤ Params.tolFloorUs { Params.ref with tolFloorUs := 4294967296 } ∧
    Params.rawCap { Params.ref with rawCap := 1 } < 2 ∧
    2 ^ Params.cntW { Params.ref with cntW := 5 } ≤ max (Params.ref.valW + 1) ((Params.ref.rawCap - 1) / 2) := by decide

theorem witness_QuiescentMachineStays :
    encoded.cfg.wf = true ∧ encoded.Quiescent ∧ encoded.sched = [] ∧
    State.Quiescent { encoded with sched := [.encoder] } :=
  ⟨by decide, ⟨rfl, rfl, rfl⟩, rfl, rfl, rfl, rfl⟩

end Sys2Proof.Tests
end

section
/-! PROOFS. The leading element of RAW is never read (R63). -/

namespace Sys2Proof.Machine

/-- A write to one element of RAW is not seen by a read of another. -/
theorem State.readRaw_writeRaw_other (s : State) {i k : Nat} (g : Nat) (h : k ≠ i) :
    State.readRaw { s with raw := s.raw.write i g } k = s.readRaw k := by
  unfold State.readRaw
  simp only [Memory.read_write_other s.raw g h]

/-- Every read of a decoder turn is at index 1, or at OFS and OFS + 1 in D_BITS, so where OFS is not 0 there, each case
of the turn stays the same case when RAW[0] is replaced. -/
theorem DecoderCase.writeRaw_zero {s t : State} (h : DecoderCase s t) (hofs : s.dstate = .bits → s.ofs ≠ 0) (g : Nat) :
    DecoderCase { s with raw := s.raw.write 0 g } { t with raw := t.raw.write 0 g } := by
  have keep {k d : Nat} (hk : k ≠ 0) (hr : s.readRaw k = .ok d) :
      State.readRaw { s with raw := s.raw.write 0 g } k = .ok d :=
    (s.readRaw_writeRaw_other g hk).trans hr
  cases h with
  | idle hd => exact .idle hd
  | short hd hl => exact .short hd hl
  | lead hd hl => exact .lead hd hl
  | noHeader d hd hr hm => exact .noHeader d hd (keep Nat.one_ne_zero hr) hm
  | header d hd hr hm => exact .header d hd (keep Nat.one_ne_zero hr) hm
  | badSpace sp hd hp hr hs => exact .badSpace sp hd hp (keep (hofs hd) hr) hs
  | badMark sp m hd hp hr hs hm hb =>
    exact .badMark sp m hd hp (keep (hofs hd) hr) hs (keep (Nat.succ_ne_zero _) hm) hb
  | bit sp m b hd hp hr hs hm hb =>
    exact .bit sp m b hd hp (keep (hofs hd) hr) hs (keep (Nat.succ_ne_zero _) hm) hb
  | exit hd hp => exact .exit hd hp
  | badLength hd hl => exact .badLength hd hl
  | done hd hl => exact .done hd hl

/-- Settles O25: the invariant puts OFS at 2 or above in D_BITS, and no case of the turn reads below index 1. -/
theorem leadingElementIsNeverRead : Obligations.LeadingElementIsNeverRead := by
  intro s t g hinv hturn
  have hofs (hd : s.dstate = .bits) : s.ofs ≠ 0 := by
    obtain ⟨-, hlow, -⟩ := hinv.pairPlace (.inl hd)
    omega
  exact decoderTurn_iff.mpr ((decoderTurn_iff.mp hturn).writeRaw_zero hofs g)

end Sys2Proof.Machine
end

section
/-! The matcher over the integers, and MATCH evaluated by itself. -/

namespace Sys2Proof.Machine

/-- R122: the form of the model, without negative numbers, is the band of R121. -/
theorem matches_iff_intBand (p : Params) (o e : Nat) :
    p.matches o e = true ↔
      (e : Int) - (p.tol e : Int) ≤ (o : Int) ∧ (o : Int) ≤ (e : Int) + (p.tol e : Int) := by
  rw [Params.matches_iff]
  omega

/-- MATCH is total and writes the model's result port alone. -/
theorem exec_matchOp (o e : Nat) (s : State) :
    exec (.matchOp o e) s = .next { s with matchOut := s.cfg.matches o e } := rfl

/-- Settles O5: the integer band is the model's own test with its subtraction moved across, MATCH answers with its
result port alone, and R121's example is evaluated under REF. -/
theorem matcherAcceptsExactlyTheBand : Obligations.MatcherAcceptsExactlyTheBand := by
  refine ⟨matches_iff_intBand, ?_, by decide⟩
  intro _ o e s _
  exact ⟨_, exec_matchOp o e s, rfl⟩

end Sys2Proof.Machine
end

section
/-! PROOFS. The decoder's state machine (R153), and the bit that a mark's width carries once its space has passed
(R147, R203). -/

namespace Sys2Proof.Machine

/-- Settles O15: the space expected at OFS is `State.spaceHere` written out, and the three outcomes of the mark's test
are the two bits and no bit of `Params.bitOfMark`. -/
theorem markWidthAloneDecidesTheBit : Obligations.MarkWidthAloneDecidesTheBit := by
  intro s sp m hd hr hsp hm hspace
  have hs : s.cfg.matches sp s.spaceHere = true := hspace
  cases hone : s.cfg.matches m s.cfg.oneMarkUs with
  | true => exact decoderTurn_iff.mpr (.bit sp m true hd hr hsp hs hm (Params.bitOfMark_true.mpr hone))
  | false =>
    cases hzero : s.cfg.matches m s.cfg.zeroMarkUs with
    | true => exact decoderTurn_iff.mpr (.bit sp m false hd hr hsp hs hm (Params.bitOfMark_false.mpr ⟨hone, hzero⟩))
    | false => exact decoderTurn_iff.mpr (.badMark sp m hd hr hsp hs hm (Params.bitOfMark_none.mpr ⟨hone, hzero⟩))

/-- A mark that carries a bit lies in the band of one of the two bit marks. -/
theorem matches_of_bitOfMark {p : Params} {m : Nat} {b : Bool} (h : p.bitOfMark m = some b) :
    p.matches m p.oneMarkUs = true ∨ p.matches m p.zeroMarkUs = true := by
  cases b with
  | true => exact .inl (Params.bitOfMark_true.mp h)
  | false => exact .inr (Params.bitOfMark_false.mp h).2

/-- When the final step accepts the count (R150). -/
theorem State.lengthBad_eq_false_iff (s : State) : s.lengthBad = false ↔
    s.cfg.lenCheck = .lenient ∨ (s.cfg.minBits ≤ s.bitCount ∧ s.bitCount ≤ s.cfg.maxBits) := by
  rw [s.lengthBad_eq, Bool.not_eq_false']
  simp [Params.lengthOk]

/-- A DECODE word on an idle decoder (R106, R141). -/
theorem exec_decode_of_idle {s : State} (h : s.dstate = .idle) :
    exec (.decode false) s = .next { s.decStartFlags with dstate := .skip } := by
  simp [exec, execDecode, State.startDecode, State.decBusy, h]

/-- Settles O21: each case of the turn is a row of R153; the two causes of NoMatch in D_BITS share one row. -/
theorem decoderTransfersAreTheTabledOnes : Obligations.DecoderTransfersAreTheTabledOnes := by
  refine ⟨fun s h => ⟨_, exec_decode_of_idle h, rfl⟩, fun s t hturn => ?_⟩
  cases decoderTurn_iff.mp hturn with
  | idle hd => exact .inl ⟨hd, rfl⟩
  | lead hd hl => exact .inr <| .inl ⟨hd, rfl, hl, rfl⟩
  | short hd hl => exact .inr <| .inr <| .inl ⟨hd, rfl, hl⟩
  | header d hd hr hm => exact .inr <| .inr <| .inr <| .inl ⟨hd, rfl, rfl, d, hr, hm⟩
  | noHeader d hd hr hm => exact .inr <| .inr <| .inr <| .inr <| .inl ⟨hd, rfl, d, hr, hm⟩
  | bit sp m b hd hr hsp hs hm hb =>
    exact .inr <| .inr <| .inr <| .inr <| .inr <| .inl
      ⟨hd, hd, hr, rfl, sp, m, hsp, hm, hs, matches_of_bitOfMark hb⟩
  | badSpace sp hd hr hsp hs =>
    exact .inr <| .inr <| .inr <| .inr <| .inr <| .inr <| .inl ⟨hd, rfl, hr, sp, hsp, .inl hs⟩
  | badMark sp m hd hr hsp hs hm hb =>
    exact .inr <| .inr <| .inr <| .inr <| .inr <| .inr <| .inl
      ⟨hd, rfl, hr, sp, hsp, .inr ⟨m, hm, Params.bitOfMark_none.mp hb⟩⟩
  | exit hd hl => exact .inr <| .inr <| .inr <| .inr <| .inr <| .inr <| .inr <| .inl ⟨hd, rfl, hl, rfl⟩
  | done hd hl =>
    exact .inr <| .inr <| .inr <| .inr <| .inr <| .inr <| .inr <| .inr <| .inl
      ⟨hd, rfl, rfl, s.lengthBad_eq_false_iff.mp hl⟩
  | badLength hd hl =>
    exact .inr <| .inr <| .inr <| .inr <| .inr <| .inr <| .inr <| .inr <| .inr
      ⟨hd, rfl, s.lengthBad_iff.mp hl⟩

end Sys2Proof.Machine
end

section
/-! PROOFS. The symbols the encoder emits: the header pair (R182) and one data bit (R183, R184). -/

namespace Sys2Proof.Machine

/-- In E_HDR the encoder's turn is HDR (R179, R182). -/
theorem encoderTurn_of_hdr {s : State} (h : s.estate = .hdr) : encoderTurn s = exec .hdr s := by
  rw [encoderTurn, h]

/-- In E_BITS the encoder's turn is the symbol of the next bit (R179, R183). -/
theorem encoderTurn_of_bits {s : State} (h : s.estate = .bits) : encoderTurn s = exec s.emitted s := by
  rw [encoderTurn, h]

/-- A count within the precondition passes the check of R181. -/
theorem State.encBitsBad_eq_false {s : State} (hpos : 1 ≤ s.encBits) (hle : s.encBits ≤ s.cfg.valW) :
    s.encBitsBad = false := by
  rw [← Bool.not_eq_true, State.encBitsBad_iff, not_not]
  exact ⟨hpos, hle⟩

/-- The index of a data pair lies inside OUT when the bit is one of a count of at most VAL_W (R68, R183). -/
theorem State.nextIndex_lt_outCap {s : State} (hlt : s.bitIdx < s.encBits) (hle : s.encBits ≤ s.cfg.valW) :
    s.nextIndex < s.cfg.outCap := by
  unfold State.nextIndex Params.outCap
  omega

/-- The two data pairs differ in the mark alone: BIT1 has the one mark, BIT0 the zero mark (R99). -/
theorem bitPair_eq_ite (p : Params) (b : Bool) :
    p.bitPair b = if b then ⟨p.oneMarkUs, p.interSpaceUs⟩ else ⟨p.zeroMarkUs, p.interSpaceUs⟩ := by
  cases b <;> rfl

/-- Settles O37: the turn in E_BITS runs the symbol of the next bit; with BITIDX above 0 it goes on, and with BITIDX = 0
it is the last. In both cases OUT takes one write, inside OUT_CAP, at the index of that bit. -/
theorem eachDataBitEmitsItsPair : Obligations.EachDataBitEmitsItsPair := by
  intro s hbits hlt hle
  have hindex := State.nextIndex_lt_outCap hlt hle
  have hpair : (s.out.write s.nextIndex (s.cfg.bitPair s.nextBit)).read s.nextIndex =
      some (if s.nextBit then ⟨s.cfg.oneMarkUs, s.cfg.interSpaceUs⟩ else ⟨s.cfg.zeroMarkUs, s.cfg.interSpaceUs⟩) := by
    rw [Memory.read_write_same, bitPair_eq_ite]
  have hrest (k : Nat) (hk : k ≠ s.nextIndex) :
      (s.out.write s.nextIndex (s.cfg.bitPair s.nextBit)).read k = s.out.read k :=
    s.out.read_write_other _ hk
  have hrun {t : State} (hcase : EncoderCase s t) : exec s.emitted s = .next t :=
    (encoderTurn_of_bits hbits).symm.trans (encoderTurn_iff.mpr hcase)
  by_cases hlast : s.bitIdx = 0
  · exact ⟨_, hrun (.last hbits hlast hindex), hpair, hrest, fun hpos => absurd hlast hpos.ne',
      fun _ => ⟨rfl, Nat.succ_le_succ hle⟩⟩
  · exact ⟨_, hrun (.bit hbits hlast hindex), hpair, hrest, fun _ => rfl, fun h => absurd h hlast⟩

/-- Settles O35: a count within the precondition is not refused, so the turn in E_HDR is its header case, whose one
write of OUT is at index 0. -/
theorem headerPairIsEmittedFirst : Obligations.HeaderPairIsEmittedFirst := by
  intro s hhdr hpos hle
  have hturn := encoderTurn_iff.mpr (.header hhdr (State.encBitsBad_eq_false hpos hle))
  exact ⟨_, (encoderTurn_of_hdr hhdr).symm.trans hturn, rfl, s.out.read_write_same 0 s.cfg.hdrPair,
    fun _ hk => s.out.read_write_other s.cfg.hdrPair hk⟩

end Sys2Proof.Machine
end

section
/-! PROOFS. The two causes of NoMatch that stand before any mark of a bit is read: the header mark (R201) and a space
(R202). -/

namespace Sys2Proof.Machine

/-- The single element at index 1 is decoded as a header mark (R93, R95). -/
theorem decodeRx_one (p : Params) (d : Nat) : decodeRx p 1 [d] = decodeHdrm p d := rfl

/-- A duration outside the band of HDR_MARK_US is no header mark (R95, R201). -/
theorem decodeHdrm_of_mismatch {p : Params} {d : Nat} (h : p.matches d p.hdrMarkUs = false) :
    decodeHdrm p d = .error .notHeaderMark := by
  simp [decodeHdrm, h]

/-- HDRM in D_HDR, with a duration outside the band (R143, R201). -/
theorem exec_hdrm_of_mismatch {s : State} {d : Nat} (hd : s.dstate = .hdr)
    (hm : s.cfg.matches d s.cfg.hdrMarkUs = false) : exec (.hdrm d) s = .next s.raiseNoMatch := by
  simp [exec, execHdrm, hd, hm]

/-- Settles O13: outside its band the duration decodes to no symbol at index 1, and both HDRM and the turn that reads it
there raise NoMatch, whose state takes neither the duration nor the index. -/
theorem headerMarkMismatchRaisesNoMatch : Obligations.HeaderMarkMismatchRaisesNoMatch := by
  intro s d hd hm
  refine ⟨exec_hdrm_of_mismatch hd hm, fun hread => ⟨⟨.notHeaderMark, ?_⟩, ?_⟩⟩
  · exact (decodeRx_one s.cfg d).trans (decodeHdrm_of_mismatch hm)
  · exact decoderTurn_iff.mpr (.noHeader d hd hread hm)

/-- Settles O16: the space expected at OFS is `State.spaceHere` written out, and the case of a bad space asks nothing of
the element at OFS + 1. -/
theorem spaceMismatchRaisesNoMatchBeforeTheMark : Obligations.SpaceMismatchRaisesNoMatchBeforeTheMark := by
  intro s sp hd hr hread hspace
  have hs : s.cfg.matches sp s.spaceHere = false := hspace
  exact decoderTurn_iff.mpr (.badSpace sp hd hr hread hs)

end Sys2Proof.Machine
end

section
/-! PROOFS. Encoding: the two directions between instructions and codes (R94 to R99, R106, R107), and which symbol
stands where in RAW (R93, R105). -/

namespace Sys2Proof.Machine

/-- The single element at index 0 is LEAD, whatever it holds (R93, R94). -/
theorem decodeRx_zero (p : Params) (d : Nat) : decodeRx p 0 [d] = .ok .lead := rfl

/-- No single element stands at index 2 or above (R93). -/
theorem decodeRx_single_of_two_le {p : Params} {i : Nat} (d : Nat) (h : 2 ≤ i) :
    decodeRx p i [d] = .error .noSymbolHere := by
  simp [decodeRx, show i ≠ 0 by omega, show i ≠ 1 by omega]

/-- A pair is read as a pair exactly at a pair position (R93). -/
theorem decodeRx_pair (p : Params) (i sp m : Nat) :
    decodeRx p i [sp, m] = if p.pairPos i then decodePair p i sp m else .error .noSymbolHere := rfl

/-- What a received code that decodes can be, by its position alone (R93). -/
theorem decodeRx_ok {p : Params} {pos : Nat} {es : List Nat} {i : Instr} (h : decodeRx p pos es = .ok i) :
    (∃ d, es = [d] ∧ pos = 0 ∧ i = .lead) ∨ (∃ d, es = [d] ∧ pos = 1 ∧ decodeHdrm p d = .ok i) ∨
      (∃ sp m, es = [sp, m] ∧ p.pairPos pos = true ∧ decodePair p pos sp m = .ok i) := by
  unfold decodeRx at h
  split at h
  case h_1 d =>
    split at h
    · rename_i hpos; cases h; exact .inl ⟨d, rfl, hpos, rfl⟩
    · split at h
      · rename_i hpos; exact .inr (.inl ⟨d, rfl, hpos, h⟩)
      · cases h
  case h_2 sp m =>
    split at h
    · rename_i hpos; exact .inr (.inr ⟨sp, m, rfl, hpos, h⟩)
    · cases h
  case h_3 => cases h

/-- The emitted pairs that decode, by their index in OUT (R99). -/
theorem decodeTx_ok {p : Params} {pos : Nat} {q : Pulse} {i : Instr} :
    decodeTx p pos q = .ok i ↔ (pos = 0 ∧ q = p.hdrPair ∧ i = .hdr) ∨
      (1 ≤ pos ∧ pos < p.outCap ∧
        ((q = p.bitPair true ∧ i = .bit1) ∨ (q ≠ p.bitPair true ∧ q = p.bitPair false ∧ i = .bit0))) := by
  rcases Nat.eq_zero_or_pos pos with rfl | hpos
  · by_cases hq : q = p.hdrPair <;> simp [decodeTx, hq, eq_comm]
  · have h0 : pos ≠ 0 := by omega
    have h1 : 1 ≤ pos := hpos
    by_cases hcap : p.outCap ≤ pos
    · simp [decodeTx, h0, hcap]
    · by_cases hone : q = p.bitPair true
      · simp [decodeTx, h0, h1, hcap, Nat.lt_of_not_le hcap, hone, eq_comm]
      · by_cases hzero : q = p.bitPair false
        · subst hzero
          simp [decodeTx, h0, h1, hcap, Nat.lt_of_not_le hcap, hone, eq_comm]
        · simp [decodeTx, h0, hcap, hone, hzero]

/-- The code of a call decodes unless its expected duration is 0 (R120). -/
theorem decodeFunc_ok {p : Params} {pos o e : Nat} {i : Instr} :
    decodeCode p pos (.func o e) = .ok i ↔ e ≠ 0 ∧ i = .matchOp o e := by
  by_cases he : e = 0 <;> simp [decodeCode, he, eq_comm]

/-- WF2 at work: the two data pairs differ. -/
theorem bitPair_false_ne_true {p : Params} (h : p.wf = true) : p.bitPair false ≠ p.bitPair true := by
  obtain ⟨-, hdiff, -⟩ := (Params.wf_iff p).mp h
  have hne : p.oneMarkUs ≠ p.zeroMarkUs := by simpa [Params.marksDiffer] using hdiff
  intro heq
  exact hne (congrArg Pulse.mark heq).symm

/-- A received code decodes to an instruction that is well formed where it stands. -/
theorem wf_of_decodeRx {p : Params} {pos : Nat} {es : List Nat} {i : Instr}
    (hfit : ∀ e ∈ es, fits p.durW e = true) (h : decodeRx p pos es = .ok i) : i.wf p pos = true := by
  rcases decodeRx_ok h with ⟨d, -, hpos, rfl⟩ | ⟨d, rfl, hpos, hd⟩ | ⟨sp, m, rfl, hpos, hpair⟩
  · simp [Instr.wf, hpos]
  · obtain ⟨hm, rfl⟩ := decodeHdrm_ok.mp hd
    simp [Instr.wf, hpos, hm, hfit d (by simp)]
  · have hsp := hfit sp (by simp)
    have hmk := hfit m (by simp)
    obtain ⟨hs, ⟨hb, rfl⟩ | ⟨hb, rfl⟩⟩ := decodePair_ok.mp hpair <;> simp [Instr.wf, hpos, hsp, hmk, hs, hb]

/-- A received code that decodes is the encoding of its instruction, but for the element of LEAD (R94). -/
theorem encode_of_decodeRx {p : Params} {pos : Nat} {es : List Nat} {i : Instr} (h : decodeRx p pos es = .ok i) :
    encode p i = .rx es ∨ i = .lead ∧ pos = 0 ∧ ∃ d, Code.rx es = .rx [d] := by
  rcases decodeRx_ok h with ⟨d, rfl, hpos, rfl⟩ | ⟨d, rfl, -, hd⟩ | ⟨sp, m, rfl, -, hpair⟩
  · exact .inr ⟨rfl, hpos, d, rfl⟩
  · obtain ⟨-, rfl⟩ := decodeHdrm_ok.mp hd
    exact .inl rfl
  · obtain ⟨-, ⟨-, rfl⟩ | ⟨-, rfl⟩⟩ := decodePair_ok.mp hpair <;> exact .inl rfl

/-- Settles O2: constructor by constructor, the instruction's well-formedness is what the decoder of its format tests;
the pair of BIT0 is told from that of BIT1 by WF2. -/
theorem decodeOfEncodeIsIdentity : Obligations.DecodeOfEncodeIsIdentity := by
  intro p pos i hp hi
  cases i with
  | nop => rfl
  | decode enc => cases enc <;> rfl
  | encode => rfl
  | matchOp o e =>
    simp only [Instr.wf, Bool.and_eq_true, decide_eq_true_eq] at hi
    exact decodeFunc_ok.mpr ⟨by omega, rfl⟩
  | lead =>
    simp only [Instr.wf, decide_eq_true_eq] at hi
    subst hi
    exact decodeRx_zero p 0
  | hdrm d =>
    simp only [Instr.wf, Bool.and_eq_true, decide_eq_true_eq] at hi
    obtain ⟨⟨rfl, -⟩, hm⟩ := hi
    exact (decodeRx_one p d).trans (decodeHdrm_ok.mpr ⟨hm, rfl⟩)
  | sbit1 sp m =>
    simp only [Instr.wf, Bool.and_eq_true, decide_eq_true_eq] at hi
    obtain ⟨⟨⟨⟨hpos, -⟩, -⟩, hs⟩, hb⟩ := hi
    exact ((decodeRx_pair p pos sp m).trans (if_pos hpos)).trans (decodePair_ok.mpr ⟨hs, .inl ⟨hb, rfl⟩⟩)
  | sbit0 sp m =>
    simp only [Instr.wf, Bool.and_eq_true, decide_eq_true_eq] at hi
    obtain ⟨⟨⟨⟨hpos, -⟩, -⟩, hs⟩, hb⟩ := hi
    exact ((decodeRx_pair p pos sp m).trans (if_pos hpos)).trans (decodePair_ok.mpr ⟨hs, .inr ⟨hb, rfl⟩⟩)
  | hdr =>
    simp only [Instr.wf, decide_eq_true_eq] at hi
    exact decodeTx_ok.mpr (.inl ⟨hi, rfl, rfl⟩)
  | bit1 =>
    simp only [Instr.wf, Bool.and_eq_true, decide_eq_true_eq] at hi
    exact decodeTx_ok.mpr (.inr ⟨hi.1, hi.2, .inl ⟨rfl, rfl⟩⟩)
  | bit0 =>
    simp only [Instr.wf, Bool.and_eq_true, decide_eq_true_eq] at hi
    exact decodeTx_ok.mpr (.inr ⟨hi.1, hi.2, .inr ⟨bitPair_false_ne_true hp, rfl, rfl⟩⟩)

/-- Settles O3: format by format, from what the decoder of that format accepts. -/
theorem decodedCodeHasOneMeaning : Obligations.DecodedCodeHasOneMeaning := by
  intro p pos c i _ hfit hdec
  cases c with
  | cmd w =>
    rcases decodeCmd_ok.mp hdec with ⟨rfl, rfl⟩ | ⟨rfl, rfl⟩ | ⟨rfl, rfl⟩ | ⟨rfl, rfl⟩ <;>
      exact ⟨rfl, .inl rfl⟩
  | rx es => exact ⟨wf_of_decodeRx (List.all_eq_true.mp hfit) hdec, encode_of_decodeRx hdec⟩
  | tx q =>
    rcases decodeTx_ok.mp hdec with ⟨hpos, rfl, rfl⟩ | ⟨hpos, hcap, ⟨rfl, rfl⟩ | ⟨-, rfl, rfl⟩⟩
    · exact ⟨by simpa [Instr.wf] using hpos, .inl rfl⟩
    · exact ⟨by simp [Instr.wf, hcap, hpos], .inl rfl⟩
    · exact ⟨by simp [Instr.wf, hcap, hpos], .inl rfl⟩
  | func o e =>
    obtain ⟨he, rfl⟩ := decodeFunc_ok.mp hdec
    simp only [Code.fitsIn, Bool.and_eq_true] at hfit
    exact ⟨by simp [Instr.wf, hfit, Nat.pos_of_ne_zero he], .inl rfl⟩

/-- A space in its band leaves the pair to its mark (R145, R211). -/
theorem decodePair_of_space {p : Params} {i sp : Nat} (m : Nat) (h : p.matches sp (p.expectedSpace i) = true) :
    decodePair p i sp m = decodeMark p sp m := by
  simp [decodePair, decodeSpace, h]

/-- A space outside its band is no symbol, whatever the mark (R105). -/
theorem decodePair_of_badSpace {p : Params} {i sp : Nat} (m : Nat) (h : p.matches sp (p.expectedSpace i) = false) :
    decodePair p i sp m = .error .spaceMismatch := by
  simp [decodePair, decodeSpace, h]

/-- The mark of a pair selects its symbol, the one mark tested first (R96, R97, R147). -/
theorem decodeMark_eq (p : Params) (sp m : Nat) :
    decodeMark p sp m = if p.matches m p.oneMarkUs then .ok (.sbit1 sp m)
      else if p.matches m p.zeroMarkUs then .ok (.sbit0 sp m) else .error .unknownMark := by
  unfold decodeMark Params.bitOfMark
  by_cases hone : p.matches m p.oneMarkUs = true <;> by_cases hzero : p.matches m p.zeroMarkUs = true <;>
    simp [hone, hzero]

/-- Settles O4: the position selects the class of symbol, and the matcher the symbol. -/
theorem receivedSymbolsAreSelectedByPosition : Obligations.ReceivedSymbolsAreSelectedByPosition := by
  intro p
  refine ⟨decodeRx_zero p, fun d => ?_, fun i sp m hpos => ?_, fun i sp m hpos => ?_, fun i d hi => ?_⟩
  · rw [decodeRx_one]
    split
    · rename_i hm; exact decodeHdrm_ok.mpr ⟨hm, rfl⟩
    · rename_i hm; exact ⟨_, decodeHdrm_of_mismatch (Bool.not_eq_true _ ▸ hm)⟩
  · rw [decodeRx_pair, if_pos hpos]
    change if p.matches sp (p.expectedSpace i) = true then _ else _
    cases hs : p.matches sp (p.expectedSpace i) with
    | false => simp [decodePair_of_badSpace m hs]
    | true =>
      rw [if_pos rfl, decodePair_of_space m hs, decodeMark_eq]
      cases hone : p.matches m p.oneMarkUs <;> cases hzero : p.matches m p.zeroMarkUs <;> simp
  · exact ⟨_, (decodeRx_pair p i sp m).trans (if_neg (by simp [hpos]))⟩
  · exact ⟨_, decodeRx_single_of_two_le d hi⟩

/-- Settles O1: the words and codes of the tables, evaluated. -/
theorem tableWordsDecodeAsWritten : Obligations.TableWordsDecodeAsWritten :=
  ⟨rfl, rfl, rfl, rfl, rfl, rfl, rfl, rfl, rfl, rfl, rfl, rfl, rfl⟩

end Sys2Proof.Machine
end

section
/-! PROOFS. The tolerance and the matcher as functions of their numbers (R120, R121, R125). -/

namespace Sys2Proof.Machine

/-- A larger percentage and a larger floor give a larger tolerance (R120). -/
theorem tol_mono {p q : Params} (hpct : p.tolPct ≤ q.tolPct) (hfloor : p.tolFloorUs ≤ q.tolFloorUs) (e : Nat) :
    p.tol e ≤ q.tol e :=
  max_le_max (Nat.div_le_div_right (Nat.mul_le_mul_left e hpct)) hfloor

/-- Without percentage and floor there is no tolerance (R125 (b)). -/
theorem tol_eq_zero {p : Params} (hpct : p.tolPct = 0) (hfloor : p.tolFloorUs = 0) (e : Nat) : p.tol e = 0 := by
  simp [Params.tol, hpct, hfloor]

/-- Settles O6: the whole percentage, rounded toward zero, is at most `n` exactly below `100 (n + 1)`. -/
theorem toleranceIsTheLargerOfPercentageAndFloor : Obligations.ToleranceIsTheLargerOfPercentageAndFloor := by
  intro p e n
  rw [Params.tol, max_le_iff, Nat.div_le_iff_le_mul_add_pred (by decide)]
  omega

/-- Settles O7: a wider band holds a narrower one, a band is an interval, and the band without tolerance is a point. -/
theorem matcherIsMonotoneAndConvex : Obligations.MatcherIsMonotoneAndConvex := by
  refine ⟨fun p q o e hpct hfloor h => ?_, fun p a b c e hab hbc ha hc => ?_, fun p o e hpct hfloor => ?_⟩
  · have hmono := tol_mono hpct hfloor e
    rw [Params.matches_iff] at h ⊢
    omega
  · rw [Params.matches_iff] at ha hc ⊢
    omega
  · rw [Params.matches_iff, tol_eq_zero hpct hfloor]
    omega

/-- Settles O8: MATCH writes its one bit to the result port, and the bit is the band of R121. -/
theorem matchInstructionGivesItsBit : Obligations.MatchInstructionGivesItsBit :=
  fun o e s => ⟨_, exec_matchOp o e s, matches_iff_intBand s.cfg o e⟩

end Sys2Proof.Machine
end

section
/-! PROOFS. The frame functions: the pair loop of DECODE on a concatenation, the value it accumulates, and ENCODE's
pairs one by one (R152, R187). -/

namespace Sys2Proof.Machine

/-- The end of a DECODE whose pair loop reached an index with a value: the length check, then the report (R149, R150).
-/
def reportOf (p : Params) (r : Nat × Nat) : Option (Nat × Nat) :=
  if p.lengthOk ((r.2 - 1) / 2) then some (r.1, (r.2 - 1) / 2) else none

/-- DECODE of at least two elements: the header mark, the pair loop, the report (R152). -/
theorem decodeFrame_cons_cons (p : Params) (g h : Nat) (rest : List Nat) :
    p.decodeFrame (g :: h :: rest) =
      if p.matches h p.hdrMarkUs then (p.decodePairs 2 0 rest).bind (reportOf p) else none := by
  simp only [Params.decodeFrame]
  cases p.decodePairs 2 0 rest <;> rfl

/-- Fewer than two elements are no frame (R142, D6). -/
theorem decodeFrame_of_short (p : Params) {es : List Nat} (h : es.length < 2) : p.decodeFrame es = none := by
  match es, h with
  | [], _ => rfl
  | [_], _ => rfl

/-- One pair of the loop (R145 to R148). -/
theorem decodePairs_pair (p : Params) (i d sp m : Nat) (rest : List Nat) :
    p.decodePairs i d (sp :: m :: rest) =
      if p.matches sp (p.expectedSpace i) then
        (p.bitOfMark m).bind fun b => p.decodePairs (i + 2) (trunc p.valW (2 * d + b.toNat)) rest
      else none := by
  rw [Params.decodePairs]
  cases p.bitOfMark m <;> rfl

/-- The loop ends when fewer than two elements remain (R144). -/
theorem decodePairs_of_short (p : Params) (i d : Nat) {es : List Nat} (h : es.length < 2) :
    p.decodePairs i d es = some (d, i) := by
  match es, h with
  | [], _ => rfl
  | [_], _ => rfl

/-- A loop over whole pairs followed by more elements goes on where the whole pairs end. -/
theorem decodePairs_append (p : Params) (n : Nat) {xs : List Nat} (hlen : xs.length = 2 * n) (ys : List Nat)
    (i d : Nat) : p.decodePairs i d (xs ++ ys) = (p.decodePairs i d xs).bind fun r => p.decodePairs r.2 r.1 ys := by
  induction n generalizing xs i d with
  | zero =>
    obtain rfl := List.eq_nil_of_length_eq_zero hlen
    rfl
  | succ n ih =>
    match xs, hlen with
    | sp :: m :: rest, hlen =>
      have hrest : rest.length = 2 * n := by simp only [List.length_cons] at hlen; omega
      rw [List.cons_append, List.cons_append, decodePairs_pair, decodePairs_pair]
      split
      · cases p.bitOfMark m with
        | none => rfl
        | some b => exact ih hrest _ _
      · rfl

/-- What the loop accumulates over `n` whole pairs while no bit is shifted out: `n` bits below the value it started with
(R100, R148). -/
theorem decodePairs_bounds (p : Params) (n : Nat) {es : List Nat} (hlen : es.length = 2 * n) {i d v o : Nat}
    (hroom : (d + 1) * 2 ^ n ≤ 2 ^ p.valW) (h : p.decodePairs i d es = some (v, o)) :
    d * 2 ^ n ≤ v ∧ v < (d + 1) * 2 ^ n ∧ o = i + 2 * n := by
  induction n generalizing es i d with
  | zero =>
    obtain rfl := List.eq_nil_of_length_eq_zero hlen
    simp only [Params.decodePairs, Option.some.injEq, Prod.mk.injEq] at h
    omega
  | succ n ih =>
    match es, hlen with
    | sp :: m :: rest, hlen =>
      have hrest : rest.length = 2 * n := by simp only [List.length_cons] at hlen; omega
      rw [decodePairs_pair] at h
      split at h
      · obtain ⟨b, -, h⟩ := Option.bind_eq_some_iff.mp h
        have hb : b.toNat ≤ 1 := b.toNat_le
        have hnext : (2 * d + b.toNat + 1) * 2 ^ n ≤ (d + 1) * 2 ^ (n + 1) := by
          rw [Nat.pow_succ', ← Nat.mul_assoc]
          exact Nat.mul_le_mul_right _ (by omega)
        have hsmall : 2 * d + b.toNat < 2 ^ p.valW := by
          have := Nat.le_mul_of_pos_right (2 * d + b.toNat + 1) (Nat.two_pow_pos n)
          omega
        rw [trunc, Nat.mod_eq_of_lt hsmall] at h
        obtain ⟨hlow, hhigh, ho⟩ := ih hrest (hnext.trans hroom) h
        have hstart : d * 2 ^ (n + 1) ≤ (2 * d + b.toNat) * 2 ^ n := by
          rw [Nat.pow_succ', ← Nat.mul_assoc]
          exact Nat.mul_le_mul_right _ (by omega)
        exact ⟨by omega, by omega, by omega⟩
      · cases h

/-- A capture of at least two elements, taken apart. -/
theorem eq_cons_cons_of_two_le {es : List Nat} (h : 2 ≤ es.length) : ∃ g m rest, es = g :: m :: rest := by
  match es, h with
  | g :: m :: rest, _ => exact ⟨g, m, rest, rfl⟩

/-- Settles O29: the loop over whole pairs goes on with the one element left over, which ends it. -/
theorem trailingSpaceIsIgnored : Obligations.TrailingSpaceIsIgnored := by
  intro p es x hlen heven
  obtain ⟨g, h, rest, rfl⟩ := eq_cons_cons_of_two_le hlen
  have hrest : rest.length = 2 * (rest.length / 2) := by simp only [List.length_cons] at heven; omega
  have hloop : p.decodePairs 2 0 (rest ++ [x]) = p.decodePairs 2 0 rest := by
    rw [decodePairs_append p _ hrest]
    cases p.decodePairs 2 0 rest <;> rfl
  rw [List.cons_append, List.cons_append, decodeFrame_cons_cons, decodeFrame_cons_cons, hloop]

/-- In Lenient mode every count passes (R150). -/
theorem reportOf_of_lenient {p : Params} (h : p.lenCheck = .lenient) (v o : Nat) :
    reportOf p (v, o) = some (v, (o - 1) / 2) := by
  simp [reportOf, Params.lengthOk, h]

/-- Settles O30: the loop over the whole capture passes through the value of its first j bits, and since no bit is
shifted out the other n - j bits lie below them. -/
theorem truncatedFrameYieldsItsFirstBits : Obligations.TruncatedFrameYieldsItsFirstBits := by
  intro p es v n j hlen hn hes hj hdec
  obtain ⟨g, h, rest, rfl⟩ := eq_cons_cons_of_two_le (show 2 ≤ es.length by omega)
  have hrest : rest.length = 2 * n := by simp only [List.length_cons] at hes; omega
  have hhead : (rest.take (2 * j)).length = 2 * j := by rw [List.length_take]; omega
  have htail : (rest.drop (2 * j)).length = 2 * (n - j) := by rw [List.length_drop]; omega
  rw [decodeFrame_cons_cons] at hdec
  split at hdec
  case isFalse => cases hdec
  case isTrue hm =>
    obtain ⟨⟨v', o⟩, hloop, hreport⟩ := Option.bind_eq_some_iff.mp hdec
    rw [reportOf_of_lenient hlen, Option.some.injEq, Prod.mk.injEq] at hreport
    rw [hreport.1] at hloop
    rw [← List.take_append_drop (2 * j) rest, decodePairs_append p j hhead] at hloop
    obtain ⟨⟨u, k⟩, hfirst, hlast⟩ := Option.bind_eq_some_iff.mp hloop
    have hsplit : 2 ^ j * 2 ^ (n - j) = 2 ^ n := by rw [← Nat.pow_add, Nat.add_sub_cancel' hj]
    have hroom : 2 ^ n ≤ 2 ^ p.valW := Nat.pow_le_pow_right (by decide) hn
    have hroomj : 2 ^ j ≤ 2 ^ p.valW := Nat.pow_le_pow_right (by decide) (hj.trans hn)
    obtain ⟨-, hu, rfl⟩ := decodePairs_bounds p j hhead (by rwa [Nat.zero_add, Nat.one_mul]) hfirst
    have hu' : (u + 1) * 2 ^ (n - j) ≤ 2 ^ p.valW :=
      (Nat.mul_le_mul_right _ (by omega)).trans (hsplit.trans_le hroom)
    obtain ⟨hlow, hhigh, -⟩ := decodePairs_bounds p (n - j) htail hu' hlast
    have hdiv : v / 2 ^ (n - j) = u :=
      Nat.div_eq_of_lt_le hlow hhigh
    rw [List.take_succ_cons, List.take_succ_cons, decodeFrame_cons_cons, if_pos hm, hfirst, hdiv]
    show reportOf p (u, 2 + 2 * j) = some (u, j)
    rw [reportOf_of_lenient hlen, show (2 + 2 * j - 1) / 2 = j by omega]

/-- The number that bits shifted into `d` give (R100). -/
def shiftBits (d : Nat) (bs : List Bool) : Nat := bs.foldl (fun d b => 2 * d + b.toNat) d

/-- Cutting the start to `w` bits does not change the result modulo `2^w`. -/
theorem shiftBits_mod (w d : Nat) (bs : List Bool) : shiftBits (d % 2 ^ w) bs % 2 ^ w = shiftBits d bs % 2 ^ w := by
  induction bs generalizing d with
  | nil => exact Nat.mod_mod _ _
  | cons b bs ih =>
    have hstep : (2 * (d % 2 ^ w) + b.toNat) % 2 ^ w = (2 * d + b.toNat) % 2 ^ w := by
      rw [Nat.add_mod, Nat.mul_mod, Nat.mod_mod, ← Nat.mul_mod, ← Nat.add_mod]
    calc shiftBits (2 * (d % 2 ^ w) + b.toNat) bs % 2 ^ w
        = shiftBits ((2 * (d % 2 ^ w) + b.toNat) % 2 ^ w) bs % 2 ^ w := (ih _).symm
      _ = shiftBits ((2 * d + b.toNat) % 2 ^ w) bs % 2 ^ w := by rw [hstep]
      _ = shiftBits (2 * d + b.toNat) bs % 2 ^ w := ih _

/-- The pairs `ps`, the first of which stands at index `i`, lie in their bands and carry the bits `bs` (R96 to R98). -/
def Carries (p : Params) : Nat → List Pulse → List Bool → Prop
  | _, [], [] => True
  | i, q :: ps, b :: bs =>
    p.matches q.space (p.expectedSpace i) = true ∧ p.bitOfMark q.mark = some b ∧ Carries p (i + 2) ps bs
  | _, _, _ => False

/-- The loop over pairs that carry bits shifts them in, first bit first, and passes over all pairs (R100, R103). -/
theorem decodePairs_of_carries (p : Params) {i : Nat} {ps : List Pulse} {bs : List Bool} (h : Carries p i ps bs)
    {d : Nat} (hd : d < 2 ^ p.valW) :
    p.decodePairs i d (spaceMarkElems ps) = some (shiftBits d bs % 2 ^ p.valW, i + 2 * bs.length) := by
  induction ps generalizing i bs d with
  | nil =>
    match bs, h with
    | [], _ => simp [spaceMarkElems, Params.decodePairs, shiftBits, Nat.mod_eq_of_lt hd]
  | cons q ps ih =>
    match bs, h with
    | b :: bs, h =>
      obtain ⟨hs, hb, hrest⟩ := h
      rw [spaceMarkElems, decodePairs_pair, if_pos hs, hb, Option.bind_some, ih hrest (trunc_lt _ _), trunc,
        shiftBits_mod, List.length_cons, show i + 2 + 2 * bs.length = i + 2 * (bs.length + 1) by omega]
      rfl

/-- Pairs that lie in their bands and carry their bits one by one. -/
theorem carries_of_getElem {p : Params} {i : Nat} {ps : List Pulse} {bs : List Bool} (hlen : ps.length = bs.length)
    (h : ∀ k q, ps[k]? = some q →
      p.matches q.space (p.expectedSpace (i + 2 * k)) = true ∧ p.bitOfMark q.mark = bs[k]?) :
    Carries p i ps bs := by
  induction ps generalizing i bs with
  | nil => obtain rfl := List.eq_nil_of_length_eq_zero hlen.symm; trivial
  | cons q ps ih =>
    match bs, hlen with
    | b :: bs, hlen =>
      obtain ⟨hs, hb⟩ := h 0 q rfl
      refine ⟨hs, hb, ih (Nat.succ.inj hlen) fun k q' hq => ?_⟩
      have := h (k + 1) q' hq
      rwa [show i + 2 * (k + 1) = i + 2 + 2 * k by omega] at this

/-- A capture whose header mark and pairs lie in their bands decodes to the bits of its marks (R103). -/
theorem decodeFrame_of_carries {p : Params} {g h : Nat} {ps : List Pulse} {bs : List Bool}
    (hh : p.matches h p.hdrMarkUs = true) (hc : Carries p 2 ps bs) (hlen : p.lengthOk bs.length = true) :
    p.decodeFrame (g :: h :: spaceMarkElems ps) = some (bitsValue bs % 2 ^ p.valW, bs.length) := by
  rw [decodeFrame_cons_cons, if_pos hh, decodePairs_of_carries p hc (Nat.two_pow_pos _), Option.bind_some]
  have hcount : (2 + 2 * bs.length - 1) / 2 = bs.length := by omega
  simp only [reportOf, hcount, hlen, if_true]
  rfl

/-- Settles O28: the k-th pair stands at index 2 + 2 k, where the expected space is the header's for k = 0 alone. -/
theorem toleratedFrameDecodesToItsBits : Obligations.ToleratedFrameDecodesToItsBits := by
  intro p g h ps bs hh hlen hps hok
  refine decodeFrame_of_carries hh (carries_of_getElem hlen fun k q hq => ?_) hok
  have hspace : p.expectedSpace (2 + 2 * k) = if k = 0 then p.hdrSpaceUs else p.interSpaceUs := by
    simp [Params.expectedSpace]
  rw [hspace]
  exact hps k q hq

end Sys2Proof.Machine
end

section
/-! PROOFS. ENCODE as a function (R187), and the way of its train through the loop-back adapter into DECODE (R78,
R156). -/

namespace Sys2Proof.Machine

/-- ENCODE answers a train exactly within the precondition (R181, R187). -/
theorem encodeFrame_eq_some {p : Params} {v n : Nat} {t : List Pulse} :
    p.encodeFrame v n = some t ↔ (1 ≤ n ∧ n ≤ p.valW) ∧ t = p.hdrPair :: p.encodeBits v n := by
  unfold Params.encodeFrame
  split <;> rename_i h <;> simp [h, eq_comm]

theorem encodeBits_length (p : Params) (v n : Nat) : (p.encodeBits v n).length = n := by
  induction n with
  | zero => rfl
  | succ n ih => rw [Params.encodeBits, List.length_cons, ih]

/-- The k-th data pair is that of bit n - 1 - k (R91, R183). -/
theorem encodeBits_getElem (p : Params) (v : Nat) {n k : Nat} (h : k < n) :
    (p.encodeBits v n)[k]? = some (p.bitPair (bitAt v (n - 1 - k))) := by
  induction n generalizing k with
  | zero => omega
  | succ n ih =>
    cases k with
    | zero => rfl
    | succ k =>
      rw [Params.encodeBits, List.getElem?_cons_succ, ih (by omega), show n + 1 - 1 - (k + 1) = n - 1 - k by omega]

/-- Values that agree below the count have the same data pairs (R186). -/
theorem encodeBits_congr (p : Params) {v w n : Nat} (h : ∀ k < n, bitAt v k = bitAt w k) :
    p.encodeBits v n = p.encodeBits w n := by
  induction n with
  | zero => rfl
  | succ n ih =>
    rw [Params.encodeBits, Params.encodeBits, h n (by omega), ih fun k hk => h k (by omega)]

/-- Settles O31: the header pair is the train's head, and the data pairs follow it one by one. -/
theorem encodedFrameHasTheTabledLayout : Obligations.EncodedFrameHasTheTabledLayout := by
  intro p v n t henc
  obtain ⟨-, rfl⟩ := encodeFrame_eq_some.mp henc
  refine ⟨by rw [List.length_cons, encodeBits_length], rfl, fun k hk => ?_⟩
  rw [Nat.add_comm, List.getElem?_cons_succ, encodeBits_getElem p v hk, bitPair_eq_ite]
  rfl

/-- Settles O32: only the bits below the count are encoded, and they agree. -/
theorem highValueBitsAreIgnored : Obligations.HighValueBitsAreIgnored := by
  intro p v w n h
  have hbits (k : Nat) (hk : k < n) : bitAt v k = bitAt w k := by
    have := congrArg (fun x => x.testBit k) h
    simpa [Nat.testBit_mod_two_pow, hk, bitAt] using this
  rw [Params.encodeFrame, Params.encodeFrame, encodeBits_congr p hbits]

/-- The gap of a capture is not looked at (R63). -/
theorem decodeFrame_cons (p : Params) (g g' : Nat) (rest : List Nat) :
    p.decodeFrame (g :: rest) = p.decodeFrame (g' :: rest) := by
  cases rest with
  | nil => rfl
  | cons h rest => rw [decodeFrame_cons_cons, decodeFrame_cons_cons]

/-- Settles O34: the capture without the tail has even length, so the last space appended to it is ignored. -/
theorem bothLoopBackCapturesDecodeAlike : Obligations.BothLoopBackCapturesDecodeAlike := by
  intro p t g g' ht
  have hpos : 0 < t.length := List.length_pos_iff.mpr ht
  have hne : toCapture g t ≠ [] := List.cons_ne_nil _ _
  have hlen : (toCaptureNoTail g t).length = 2 * t.length := by simp [toCaptureNoTail, toCapture, flattenPulses_length]
  have hflat : flattenPulses t ≠ [] := by
    rw [← List.length_pos_iff, flattenPulses_length]
    omega
  calc p.decodeFrame (toCapture g t)
      = p.decodeFrame (toCaptureNoTail g t ++ [(toCapture g t).getLast hne]) := by
        rw [toCaptureNoTail, List.dropLast_append_getLast]
    _ = p.decodeFrame (toCaptureNoTail g t) := trailingSpaceIsIgnored p _ _ (by omega) (by omega)
    _ = p.decodeFrame (toCaptureNoTail g' t) := by
        rw [toCaptureNoTail, toCaptureNoTail, toCapture, toCapture, List.dropLast_cons_of_ne_nil hflat,
          List.dropLast_cons_of_ne_nil hflat]
        exact decodeFrame_cons p g g' _

/-- The pair loop over the data pairs of an ENCODE, each bit's mark behind the space of the pair before it: the bits
below the count are shifted in, and the last space is left over (R91, R100). -/
theorem decodePairs_encodeBits {p : Params} (hp : p.wf = true) (v n : Nat) {sp i d : Nat} (hi : 2 ≤ i)
    (hsp : p.matches sp (p.expectedSpace i) = true) (hd : d < 2 ^ p.valW) :
    p.decodePairs i d (sp :: flattenPulses (p.encodeBits v n)) =
      some ((d * 2 ^ n + v % 2 ^ n) % 2 ^ p.valW, i + 2 * n) := by
  induction n generalizing sp i d with
  | zero => simp [Params.encodeBits, flattenPulses, Params.decodePairs, Nat.mod_one, Nat.mod_eq_of_lt hd]
  | succ n ih =>
    have hinter : p.matches p.interSpaceUs (p.expectedSpace (i + 2)) = true := by
      simp [Params.expectedSpace, show i ≠ 0 by omega]
    have hvalue : (2 * d + (v.testBit n).toNat) * 2 ^ n + v % 2 ^ n = d * 2 ^ (n + 1) + v % 2 ^ (n + 1) := by
      rw [Nat.toNat_testBit, Nat.mod_pow_succ, Nat.pow_succ]
      ring
    rw [Params.encodeBits, flattenPulses, decodePairs_pair, if_pos hsp, Params.bitOfMark_nominal hp, Option.bind_some]
    refine (ih (by omega) hinter (trunc_lt _ _)).trans ?_
    rw [trunc, Nat.add_mod, Nat.mod_mul_mod, ← Nat.add_mod, bitAt, hvalue,
      show i + 2 + 2 * n = i + 2 * (n + 1) by omega]

/-- Settles O33: the header mark and the header space are nominal, the loop shifts in the bits below the count, and
since the count is at most VAL_W none is lost. The capture without the tail decodes alike. -/
theorem roundTripWithoutJitter : Obligations.RoundTripWithoutJitter := by
  intro p v n t g hp henc hok
  obtain ⟨⟨-, hn⟩, rfl⟩ := encodeFrame_eq_some.mp henc
  have hspace : p.matches p.hdrSpaceUs (p.expectedSpace 2) = true := p.matches_self _
  have hfits : v % 2 ^ n < 2 ^ p.valW :=
    (Nat.mod_lt v (Nat.two_pow_pos n)).trans_le (Nat.pow_le_pow_right (by decide) hn)
  have hloop : p.decodePairs 2 0 (p.hdrSpaceUs :: flattenPulses (p.encodeBits v n)) =
      some (v % 2 ^ n, 2 + 2 * n) := by
    rw [decodePairs_encodeBits hp v n le_rfl hspace (Nat.two_pow_pos _), Nat.zero_mul, Nat.zero_add,
      Nat.mod_eq_of_lt hfits]
  have hdec : p.decodeFrame (toCapture g (p.hdrPair :: p.encodeBits v n)) = some (v % 2 ^ n, n) := by
    have hcount : (2 + 2 * n - 1) / 2 = n := by omega
    rw [toCapture, flattenPulses, Params.hdrPair, decodeFrame_cons_cons, if_pos (p.matches_self _), hloop,
      Option.bind_some]
    simp only [reportOf, hcount, hok, if_true]
  exact ⟨hdec, (bothLoopBackCapturesDecodeAlike p _ g g (List.cons_ne_nil _ _)).symm.trans hdec⟩

end Sys2Proof.Machine
end

section
/-! PROOFS. The command words: what a start does to an idle and to a busy engine (R106, R141, R180). -/

namespace Sys2Proof.Machine

theorem State.startDecode_of_idle {s : State} (h : s.dstate = .idle) :
    s.startDecode = { s with decDone := false, dstate := .skip } := by
  rw [State.startDecode, State.decBusy, h]
  rfl

theorem State.startDecode_of_busy {s : State} (h : s.dstate ≠ .idle) : s.startDecode = s := by
  rw [State.startDecode, State.decBusy, decide_eq_true h, if_pos rfl]

theorem State.startEncode_of_idle {s : State} (h : s.estate = .idle) :
    s.startEncode = { s with encDone := false, estate := .hdr } := by
  rw [State.startEncode, State.encBusy, h]
  rfl

theorem State.startEncode_of_busy {s : State} (h : s.estate ≠ .idle) : s.startEncode = s := by
  rw [State.startEncode, State.encBusy, decide_eq_true h, if_pos rfl]

/-- After a start the decoder is busy, whether it was idle or not (R106). -/
theorem State.startDecode_dstate_ne_idle (s : State) : s.startDecode.dstate ≠ .idle := by
  by_cases h : s.dstate = .idle
  · simp [State.startDecode_of_idle h]
  · rwa [State.startDecode_of_busy h]

/-- After a start the encoder is busy, whether it was idle or not (R106). -/
theorem State.startEncode_estate_ne_idle (s : State) : s.startEncode.estate ≠ .idle := by
  by_cases h : s.estate = .idle
  · simp [State.startEncode_of_idle h]
  · rwa [State.startEncode_of_busy h]

/-- A start of the encoder writes ENC_DONE and ESTATE alone. -/
theorem State.startEncode_eq (s : State) :
    s.startEncode = { s with encDone := s.startEncode.encDone, estate := s.startEncode.estate } := by
  unfold State.startEncode
  split <;> rfl

/-- The two starts commute: each reads and writes its own engine's registers alone (R217). -/
theorem State.startEncode_startDecode (s : State) : s.startEncode.startDecode = s.startDecode.startEncode := by
  by_cases hd : s.dstate = .idle <;> by_cases he : s.estate = .idle <;>
    simp [State.startDecode, State.startEncode, State.decBusy, State.encBusy, hd, he, State.decStartFlags,
      State.encStartFlags]

/-- Settles O9: each start in an idle and in a busy engine. -/
theorem commandsStartIdleEnginesOnly : Obligations.CommandsStartIdleEnginesOnly := by
  intro s
  refine ⟨rfl, fun h => ?_, fun h => ?_, fun h => ?_, fun h => ?_⟩
  · exact congrArg _ (State.startDecode_of_idle h)
  · exact congrArg _ (State.startDecode_of_busy h)
  · exact congrArg _ (State.startEncode_of_idle h)
  · exact congrArg _ (State.startEncode_of_busy h)

/-- Settles O10: the word 0b11 makes both starts, and the starts commute. -/
theorem bothStartBitsActIndependently : Obligations.BothStartBitsActIndependently := by
  intro s
  refine ⟨s.startDecode, s.startEncode, s.startDecode.startEncode, rfl, rfl, rfl, ?_, rfl, ?_, ?_, ?_⟩
  · exact congrArg _ s.startEncode_startDecode
  · rw [State.startEncode_dstate]
    exact s.startDecode_dstate_ne_idle
  · exact s.startDecode.startEncode_estate_ne_idle
  · exact s.startDecode.startEncode_eq.trans (by simp)

end Sys2Proof.Machine
end

section
/-! PROOFS. The decoder's steps one by one: what each symbol and each step without a symbol does, its frame, and the
causes of NoMatch (R142 to R151, R200, R207). -/

namespace Sys2Proof.Machine

/-- In D_SKIP the decoder's turn is LEAD (R142). -/
theorem decoderTurn_of_skip {s : State} (h : s.dstate = .skip) : decoderTurn s = exec .lead s := by
  rw [decoderTurn, h]

/-- HDRM in D_HDR, with a duration in the band (R143). -/
theorem exec_hdrm_of_match {s : State} {d : Nat} (hd : s.dstate = .hdr) (hm : s.cfg.matches d s.cfg.hdrMarkUs = true) :
    exec (.hdrm d) s = .next { s with ofs := 2, data := 0, dstate := .bits } := by
  simp [exec, execHdrm, hd, hm]

/-- The pair step on a pair that carries a bit (R148). -/
theorem pairStep_of_bit {s : State} {sp m : Nat} {b : Bool} (hd : s.dstate = .bits) (hr : s.ofs + 2 ≤ s.rawLen)
    (hs : s.cfg.matches sp s.spaceHere = true) (hb : s.cfg.bitOfMark m = some b) :
    pairStep sp m s = .next { s with data := (2 * s.data + b.toNat) % 2 ^ s.cfg.valW, ofs := s.ofs + 2 } := by
  rw [pairStep_of_space hd hr hs, hb, ← s.shiftIn_eq]
  rfl

/-- The decoder's own registers are all that a turn writes, case by case (R57). -/
theorem DecoderCase.sameOutside {s t : State} (h : DecoderCase s t) : SameOutsideDecoder s t := by
  cases h <;> rfl

/-- The pair step writes the decoder's own registers alone, with any operands. -/
theorem pairStep_sameOutside {s t : State} {sp m : Nat} (h : pairStep sp m s = .next t) : SameOutsideDecoder s t := by
  unfold pairStep at h
  split at h
  · split at h
    · split at h
      · cases h; rfl
      · cases h; rfl
    · cases h; rfl
  · cases h

/-- HDRM writes the decoder's own registers alone, with any operand. -/
theorem execHdrm_sameOutside {s t : State} {d : Nat} (h : execHdrm d s = .next t) : SameOutsideDecoder s t := by
  unfold execHdrm at h
  split at h
  · split at h
    · cases h; rfl
    · cases h; rfl
  · cases h

/-- LEAD writes the decoder's own registers alone. -/
theorem execLead_sameOutside {s t : State} (h : execLead s = .next t) : SameOutsideDecoder s t := by
  unfold execLead at h
  split at h
  · split at h
    · cases h; rfl
    · cases h; rfl
  · cases h

/-- Settles O11: the two branches of LEAD. -/
theorem leadPassesOverTheFirstElement : Obligations.LeadPassesOverTheFirstElement := by
  intro s hd
  refine ⟨fun hl => ?_, fun hl => ?_⟩
  · exact (decoderTurn_of_skip hd).symm.trans (decoderTurn_iff.mpr (.lead hd hl))
  · exact (decoderTurn_of_skip hd).symm.trans (decoderTurn_iff.mpr (.short hd hl))

/-- Settles O12: HDRM and the turn that reads the duration at index 1 reach the same state. -/
theorem headerMarkInItsBandIsAccepted : Obligations.HeaderMarkInItsBandIsAccepted := by
  intro s d hd hm
  have hexec := exec_hdrm_of_match hd hm
  refine ⟨hexec, fun hread => ⟨?_, ?_⟩⟩
  · exact (decodeRx_one s.cfg d).trans (decodeHdrm_ok.mpr ⟨hm, rfl⟩)
  · exact (decoderTurn_iff.mpr (.header d hd hread hm)).trans hexec.symm

/-- Settles O14: the mark's bit is 1 for SBIT1 and 0 for SBIT0, and the pair step shifts it in. -/
theorem selectedPairShiftsInItsBit : Obligations.SelectedPairShiftsInItsBit := by
  intro s sp m hd hr hspace
  refine ⟨fun hone => ?_, fun hone hzero => ?_⟩
  · exact pairStep_of_bit hd hr hspace (Params.bitOfMark_true.mpr hone)
  · exact pairStep_of_bit hd hr hspace (Params.bitOfMark_false.mpr ⟨hone, hzero⟩)

/-- Settles O17: the case of the loop exit asks nothing of RAW. -/
theorem leftOverElementIsNeverRead : Obligations.LeftOverElementIsNeverRead := by
  intro s m hd hl
  exact decoderTurn_iff.mpr (.exit hd hl)

/-- Settles O18: the final step is one of two cases, by the length check. -/
theorem finalStepReportsMatchOrLength : Obligations.FinalStepReportsMatchOrLength := by
  intro s hd
  have hbad := s.lengthBad_iff
  split
  · rename_i h
    exact decoderTurn_iff.mpr (.badLength hd (hbad.mpr h))
  · rename_i h
    exact ⟨_, decoderTurn_iff.mpr (.done hd (Bool.not_eq_true _ ▸ mt hbad.mp h)), rfl⟩

/-- Settles O19: the fields of NoMatch. -/
theorem noMatchHasItsOneEffect : Obligations.NoMatchHasItsOneEffect := by
  rintro s t rfl
  exact ⟨rfl, rfl, rfl, rfl, rfl, rfl, rfl⟩

/-- A cause for which the decoder's turn ends without a Match (R200), in the order of R211. -/
def State.NoMatchCause (s : State) : Prop :=
  (s.dstate = .skip ∧ s.rawLen < 2) ∨
  (s.dstate = .hdr ∧ ∃ d, s.readRaw 1 = .ok d ∧ s.cfg.matches d s.cfg.hdrMarkUs = false) ∨
  (s.dstate = .bits ∧ s.ofs + 2 ≤ s.rawLen ∧ ∃ sp, s.readRaw s.ofs = .ok sp ∧
    (s.cfg.matches sp s.spaceHere = false ∨
      ∃ m, s.readRaw (s.ofs + 1) = .ok m ∧ s.cfg.matches m s.cfg.oneMarkUs = false ∧
        s.cfg.matches m s.cfg.zeroMarkUs = false)) ∨
  (s.dstate = .fin ∧ s.cfg.lengthOk ((s.ofs - 1) / 2) = false)

/-- Each cause is a case of the turn that raises NoMatch. A mark that carries no bit is a cause whether or not its space
has passed. -/
theorem decoderTurn_of_noMatchCause {s : State} (h : s.NoMatchCause) : decoderTurn s = .next s.raiseNoMatch := by
  rcases h with ⟨hd, hl⟩ | ⟨hd, d, hread, hm⟩ | ⟨hd, hr, sp, hsp, hcause⟩ | ⟨hd, hlen⟩
  · exact decoderTurn_iff.mpr (.short hd hl)
  · exact decoderTurn_iff.mpr (.noHeader d hd hread hm)
  · cases hs : s.cfg.matches sp s.spaceHere with
    | false => exact decoderTurn_iff.mpr (.badSpace sp hd hr hsp hs)
    | true =>
      obtain hs' | ⟨m, hm, hmark⟩ := hcause
      · cases hs.symm.trans hs'
      · exact decoderTurn_iff.mpr (.badMark sp m hd hr hsp hs hm (Params.bitOfMark_none.mpr hmark))
  · have hbad : s.lengthBad = true := by rw [s.lengthBad_eq, State.bitCount, hlen, Bool.not_false]
    exact decoderTurn_iff.mpr (.badLength hd hbad)

/-- Settles O20: of the cases of a busy turn, those that end idle with DEC_MATCH 0 are the causes listed, and each cause
raises NoMatch. -/
theorem noMatchComesExactlyFromItsCauses : Obligations.NoMatchComesExactlyFromItsCauses := by
  intro s t hbusy hturn
  constructor
  · rintro ⟨hidle, hmatch⟩
    cases decoderTurn_iff.mp hturn with
    | idle hd => exact absurd hd hbusy
    | short hd hl => exact .inl ⟨hd, hl⟩
    | lead hd hl => cases hidle
    | noHeader d hd hr hm => exact .inr <| .inl ⟨hd, d, hr, hm⟩
    | header d hd hr hm => cases hidle
    | badSpace sp hd hr hsp hs => exact .inr <| .inr <| .inl ⟨hd, hr, sp, hsp, .inl hs⟩
    | badMark sp m hd hr hsp hs hm hb =>
      exact .inr <| .inr <| .inl ⟨hd, hr, sp, hsp, .inr ⟨m, hm, Params.bitOfMark_none.mp hb⟩⟩
    | bit sp m b hd hr hsp hs hm hb => exact absurd hidle hbusy
    | exit hd hl => cases hidle
    | badLength hd hl =>
      rw [s.lengthBad_eq, Bool.not_eq_true'] at hl
      exact .inr <| .inr <| .inr ⟨hd, hl⟩
    | done hd hl => cases hmatch
  · intro hcause
    obtain rfl : s.raiseNoMatch = t := Host.Outcome.next.inj ((decoderTurn_of_noMatchCause hcause).symm.trans hturn)
    exact ⟨rfl, rfl⟩

/-- Settles O22: case by case, with the place of OFS that the invariant gives for each state of the decoder. -/
theorem offsetOnlyMovesForward : Obligations.OffsetOnlyMovesForward := by
  intro s t hinv hbusy hturn hbusy'
  cases decoderTurn_iff.mp hturn with
  | idle hd => exact absurd hd hbusy
  | lead hd hl => exact ⟨(by decide : 1 ≤ 2).trans hl, rfl, .inl ⟨hd, rfl⟩⟩
  | header d hd hr hm =>
    obtain ⟨hofs, hlen⟩ := hinv.hdrPlace hd
    exact ⟨hlen, rfl, .inr (.inl ⟨hofs, rfl⟩)⟩
  | bit sp m b hd hr hsp hs hm hb =>
    obtain ⟨heven, -, -⟩ := hinv.pairPlace (.inl hd)
    exact ⟨hr, rfl, .inr (.inr ⟨heven, .inl rfl⟩)⟩
  | exit hd hl =>
    obtain ⟨heven, -, hle⟩ := hinv.pairPlace (.inl hd)
    exact ⟨hle, rfl, .inr (.inr ⟨heven, .inr ⟨rfl, rfl⟩⟩)⟩
  | short | noHeader | badSpace | badMark | badLength | done => exact absurd rfl hbusy'

/-- Settles O23: the turn case by case, and each symbol's meaning branch by branch. -/
theorem decoderTouchesOnlyItsOwnRegisters : Obligations.DecoderTouchesOnlyItsOwnRegisters := by
  refine fun s t => ⟨fun h => (decoderTurn_iff.mp h).sameOutside, ?_⟩
  rintro i (rfl | ⟨d, rfl⟩ | ⟨sp, m, rfl⟩ | ⟨sp, m, rfl⟩) h
  · exact execLead_sameOutside h
  · exact execHdrm_sameOutside h
  · exact pairStep_sameOutside h
  · exact pairStep_sameOutside h

/-- A turn of the decoder answers next, or it stops on a read: of RAW[1] in D_HDR, or of an element below RAW_LEN in
D_BITS. No turn is refused. -/
theorem decoderTurn_next_or_fault (s : State) : (∃ t, decoderTurn s = .next t) ∨
    ∃ i f, decoderTurn s = .fault f ∧ s.readRaw i = .error f ∧
      (s.dstate = .hdr ∧ i = 1 ∨ s.dstate = .bits ∧ i < s.rawLen) := by
  cases hd : s.dstate with
  | idle => exact .inl ⟨_, decoderTurn_iff.mpr (.idle hd)⟩
  | skip =>
    rcases Nat.lt_or_ge s.rawLen 2 with hl | hl
    · exact .inl ⟨_, decoderTurn_iff.mpr (.short hd hl)⟩
    · exact .inl ⟨_, decoderTurn_iff.mpr (.lead hd hl)⟩
  | hdr =>
    cases hread : s.readRaw 1 with
    | error f => exact .inr ⟨1, f, by simp [decoderTurn, hd, headerTurn, hread], hread, .inl ⟨rfl, rfl⟩⟩
    | ok d =>
      cases hm : s.cfg.matches d s.cfg.hdrMarkUs with
      | false => exact .inl ⟨_, decoderTurn_iff.mpr (.noHeader d hd hread hm)⟩
      | true => exact .inl ⟨_, decoderTurn_iff.mpr (.header d hd hread hm)⟩
  | bits =>
    rcases Nat.lt_or_ge s.rawLen (s.ofs + 2) with hl | hr
    · exact .inl ⟨_, decoderTurn_iff.mpr (.exit hd hl)⟩
    · have hturn : decoderTurn s = pairTurn s := by simp [decoderTurn, hd, s.pairRemains_iff.mpr hr]
      cases hsp : s.readRaw s.ofs with
      | error f => exact .inr ⟨s.ofs, f, by simp [hturn, pairTurn, hsp], hsp, .inr ⟨rfl, by omega⟩⟩
      | ok sp =>
        cases hs : s.cfg.matches sp s.spaceHere with
        | false => exact .inl ⟨_, decoderTurn_iff.mpr (.badSpace sp hd hr hsp hs)⟩
        | true =>
          cases hm : s.readRaw (s.ofs + 1) with
          | error f =>
            have hspace : decodeSpace s.cfg s.ofs sp = .ok () := decodeSpace_ok.mpr hs
            exact .inr ⟨s.ofs + 1, f, by simp [hturn, pairTurn, hsp, hspace, hm], hm, .inr ⟨rfl, by omega⟩⟩
          | ok m =>
            cases hb : s.cfg.bitOfMark m with
            | none => exact .inl ⟨_, decoderTurn_iff.mpr (.badMark sp m hd hr hsp hs hm hb)⟩
            | some b => exact .inl ⟨_, decoderTurn_iff.mpr (.bit sp m b hd hr hsp hs hm hb)⟩
  | fin =>
    cases hl : s.lengthBad with
    | true => exact .inl ⟨_, decoderTurn_iff.mpr (.badLength hd hl)⟩
    | false => exact .inl ⟨_, decoderTurn_iff.mpr (.done hd hl)⟩

/-- Below RAW_LEN every element of a written capture is read (R34, R244). -/
theorem State.readRaw_of_written {s : State} (hinv : s.Inv) (hw : s.CaptureWritten) {i : Nat} (hi : i < s.rawLen) :
    ∃ d, s.readRaw i = .ok d := by
  obtain ⟨d, hd⟩ := Option.isSome_iff_exists.mp (hw i hi)
  exact ⟨d, State.readRaw_ok.mpr ⟨hi.trans_le hinv.rawLenIn, hd⟩⟩

/-- Settles O24: every element on which a turn could stop lies below RAW_LEN, by the invariant for RAW[1], and so has
been written. -/
theorem decoderNeverStopsOnAWrittenCapture : Obligations.DecoderNeverStopsOnAWrittenCapture := by
  intro s hinv hw
  rcases decoderTurn_next_or_fault s with hnext | ⟨i, f, -, hread, hplace⟩
  · exact hnext
  · have hi : i < s.rawLen := by
      rcases hplace with ⟨hd, rfl⟩ | ⟨-, hi⟩
      · exact (hinv.hdrPlace hd).2
      · exact hi
    obtain ⟨d, hd⟩ := State.readRaw_of_written hinv hw hi
    cases hread.symm.trans hd

end Sys2Proof.Machine
end

section
/-! PROOFS. The encoder's steps: refusal, completion, frame (R57, R181 to R185, R204), and that the turns of the two
engines commute (R217). -/

namespace Sys2Proof.Machine

/-- The encoder's own registers are all that a turn writes, case by case (R57). -/
theorem EncoderCase.sameOutside {s t : State} (h : EncoderCase s t) : SameOutsideEncoder s t := by
  cases h <;> rfl

/-- Of OUT a turn writes at most the entry of the pair it emits (R71, R182, R183). -/
theorem EncoderCase.read_out {s t : State} (h : EncoderCase s t) {k : Nat}
    (hk : k ≠ if s.estate = .hdr then 0 else s.nextIndex) : t.out.read k = s.out.read k := by
  cases h with
  | idle => rfl
  | refuse => rfl
  | header he _ =>
    rw [if_pos he] at hk
    exact s.out.read_write_other _ hk
  | bit he _ _ =>
    rw [if_neg (by simp [he])] at hk
    exact s.out.read_write_other _ hk
  | last he _ _ =>
    rw [if_neg (by simp [he])] at hk
    exact s.out.read_write_other _ hk

/-- HDR answers next only in its place, where it is the encoder's turn (R99). -/
theorem encoderTurn_of_exec_hdr {s t : State} (h : exec .hdr s = .next t) : encoderTurn s = .next t := by
  by_cases he : s.estate = .hdr
  · rwa [encoderTurn_of_hdr he]
  · simp [exec, execHdr, he] at h

/-- BIT1 and BIT0 answer next only in their place, where they are the encoder's turn (R99, R183). -/
theorem encoderTurn_of_exec_bit {s t : State} (b : Bool) (h : exec (if b then .bit1 else .bit0) s = .next t) :
    encoderTurn s = .next t := by
  by_cases hplace : s.estate = .bits ∧ s.nextBit = b
  · obtain ⟨he, rfl⟩ := hplace
    rwa [encoderTurn_of_bits he]
  · cases b <;> simp [exec, execBit0, execBit1, hplace] at h

/-- Settles O36: a count outside the precondition fails the check of R181, and the turn refuses. -/
theorem encoderRefusesBadCounts : Obligations.EncoderRefusesBadCounts := by
  intro s he hcount
  have hbad : s.encBitsBad = true := s.encBitsBad_iff.mpr (by omega)
  exact (encoderTurn_of_hdr he).symm.trans (encoderTurn_iff.mpr (.refuse he hbad))

/-- Settles O38: with BITIDX = 0 the only case of the turn is the last bit. -/
theorem lastBitCompletesTheEncode : Obligations.LastBitCompletesTheEncode := by
  intro s t he hidx hturn
  have hcase := encoderTurn_iff.mp hturn
  refine ⟨?_, fun k hk => hcase.read_out (by simpa [he] using hk)⟩
  cases hcase with
  | last => rfl
  | bit _ hne _ => exact absurd hidx hne
  | idle h => cases he.symm.trans h
  | refuse h _ => cases he.symm.trans h
  | header h _ => cases he.symm.trans h

/-- Settles O39: each symbol that answers next is the encoder's turn, whose cases write what is listed. -/
theorem encoderTouchesOnlyItsOwnRegisters : Obligations.EncoderTouchesOnlyItsOwnRegisters := by
  refine fun s t => ⟨fun h => (encoderTurn_iff.mp h).sameOutside, fun i hi h => ?_⟩
  have hcase : EncoderCase s t := by
    rcases hi with rfl | rfl | rfl
    · exact encoderTurn_iff.mp (encoderTurn_of_exec_hdr h)
    · exact encoderTurn_iff.mp (encoderTurn_of_exec_bit true h)
    · exact encoderTurn_iff.mp (encoderTurn_of_exec_bit false h)
  exact ⟨hcase.sameOutside, fun k hk => hcase.read_out hk⟩

/-- Settles O40: the one index that could lie outside OUT is that of a data pair, and the invariant bounds the bit and
the count. -/
theorem encoderNeverStops : Obligations.EncoderNeverStops := by
  intro s hinv
  suffices ∃ t, EncoderCase s t by
    obtain ⟨t, ht⟩ := this
    exact ⟨t, encoderTurn_iff.mpr ht⟩
  cases he : s.estate with
  | idle => exact ⟨_, .idle he⟩
  | hdr =>
    cases hb : s.encBitsBad with
    | true => exact ⟨_, .refuse he hb⟩
    | false => exact ⟨_, .header he hb⟩
  | bits =>
    obtain ⟨hlt, hle⟩ := hinv.emitPlace he
    have hindex := State.nextIndex_lt_outCap hlt hle
    by_cases hidx : s.bitIdx = 0
    · exact ⟨_, .last he hidx hindex⟩
    · exact ⟨_, .bit he hidx hindex⟩

/-- The state `s` with the encoder's registers of `e` (R57). -/
def State.withEncoderOf (s e : State) : State :=
  { s with estate := e.estate, bitIdx := e.bitIdx, out := e.out, outLen := e.outLen, encDone := e.encDone,
           encErr := e.encErr }

/-- The state `s` with the decoder's registers, and the count of free values, of `d` (R57). -/
def State.withDecoderOf (s d : State) : State :=
  { s with ofs := d.ofs, data := d.data, dstate := d.dstate, decDone := d.decDone, decMatch := d.decMatch,
           decValue := d.decValue, decBits := d.decBits, draws := d.draws }

/-- The frame of a decoder turn, as an equation of states. -/
theorem DecoderCase.eq_withDecoderOf {s t : State} (h : DecoderCase s t) : t = s.withDecoderOf t := h.sameOutside

/-- The frame of an encoder turn, as an equation of states. -/
theorem EncoderCase.eq_withEncoderOf {s t : State} (h : EncoderCase s t) : t = s.withEncoderOf t := h.sameOutside

/-- The decoder neither reads nor writes the encoder's registers: each case of its turn is the same case whatever they
hold (R217). -/
theorem DecoderCase.withEncoderOf {s t : State} (h : DecoderCase s t) (e : State) :
    DecoderCase (s.withEncoderOf e) (t.withEncoderOf e) := by
  cases h with
  | idle hd => exact .idle hd
  | short hd hl => exact .short hd hl
  | lead hd hl => exact .lead hd hl
  | noHeader d hd hr hm => exact .noHeader d hd hr hm
  | header d hd hr hm => exact .header d hd hr hm
  | badSpace sp hd hp hr hs => exact .badSpace sp hd hp hr hs
  | badMark sp m hd hp hr hs hm hb => exact .badMark sp m hd hp hr hs hm hb
  | bit sp m b hd hp hr hs hm hb => exact .bit sp m b hd hp hr hs hm hb
  | exit hd hp => exact .exit hd hp
  | badLength hd hl => exact .badLength hd hl
  | done hd hl => exact .done hd hl

/-- The encoder neither reads nor writes the decoder's registers (R217). -/
theorem EncoderCase.withDecoderOf {s t : State} (h : EncoderCase s t) (d : State) :
    EncoderCase (s.withDecoderOf d) (t.withDecoderOf d) := by
  cases h with
  | idle he => exact .idle he
  | refuse he hb => exact .refuse he hb
  | header he hb => exact .header he hb
  | bit he hi hk => exact .bit he hi hk
  | last he hi hk => exact .last he hi hk

/-- Settles O42: both orders reach the state with the decoder's registers of the one turn and the encoder's registers of
the other. -/
theorem enginesCommute : Obligations.EnginesCommute := by
  intro s a b ha hb
  have hdec := decoderTurn_iff.mp ha
  have henc := encoderTurn_iff.mp hb
  have ha' : s.withDecoderOf a = a := hdec.eq_withDecoderOf.symm
  have hb' : s.withEncoderOf b = b := henc.eq_withEncoderOf.symm
  have hab : a.withEncoderOf b = b.withDecoderOf a := by
    conv_lhs => rw [← ha']
    conv_rhs => rw [← hb']
    rfl
  refine ⟨b.withDecoderOf a, encoderTurn_iff.mpr ?_, decoderTurn_iff.mpr ?_⟩
  · simpa only [ha'] using henc.withDecoderOf a
  · simpa only [hb', hab] using hdec.withEncoderOf b

end Sys2Proof.Machine
end

section
/-! PROOFS. The invariant holds at reset and every step keeps it: one lemma per thing that a turn can do. -/

namespace Sys2Proof.Machine

theorem inv_resetOf {p : Params} (h : p.wf = true) : (State.resetOf p).Inv where
  cfgWf := h
  rawWf := rfl
  rawIn := by simp [State.resetOf]
  rawLenIn := Nat.zero_le _
  outWf := rfl
  outIn := by simp [State.resetOf]
  outLenIn := Nat.zero_le _
  ofsFits := Nat.two_pow_pos _
  dataFits := Nat.two_pow_pos _
  decValueFits := Nat.two_pow_pos _
  decBitsFits := Nat.two_pow_pos _
  encValueFits := Nat.two_pow_pos _
  encBitsFits := Nat.two_pow_pos _
  bitIdxFits := Nat.two_pow_pos _
  hdrPlace := by simp [State.resetOf]
  pairPlace := by simp [State.resetOf]
  finPlace := by simp [State.resetOf]
  decBusyNotDone := fun _ => rfl
  emitPlace := by simp [State.resetOf]
  emittedSoFar := by simp [State.resetOf]
  encBusyNotDone := fun _ => rfl
  trainWritten := by simp [State.resetOf]

/-- Settles O56: REF is well formed, and the state after reset of a well-formed parameter set meets the invariant. -/
theorem resetMeetsTheInvariant : Obligations.ResetMeetsTheInvariant :=
  ⟨inv_resetOf (by decide), fun _ h => inv_resetOf h⟩

/-- The host's moves, the schedule and the count of free values are outside the invariant. -/
theorem State.Inv.outside {s : State} (h : s.Inv) (ms : List HostMove) (l : List Agent) (n : Nat) :
    State.Inv { s with moves := ms, sched := l, draws := n } :=
  { h with }

/-! What the decoder does. -/

theorem State.Inv.raiseNoMatch {s : State} (h : s.Inv) : s.raiseNoMatch.Inv :=
  { h with
    ofsFits := trunc_lt _ _
    dataFits := trunc_lt _ _
    decValueFits := trunc_lt _ _
    decBitsFits := trunc_lt _ _
    hdrPlace := by simp
    pairPlace := by simp
    finPlace := by simp
    decBusyNotDone := by simp }

/-- An index up to RAW_LEN fits IDX_W bits (R35, R36). -/
theorem State.Inv.index_lt {s : State} (h : s.Inv) {i : Nat} (hi : i ≤ s.rawLen) : i < 2 ^ s.cfg.idxW :=
  (hi.trans h.rawLenIn).trans_lt s.cfg.rawCap_lt_idx

theorem State.Inv.lead {s : State} (h : s.Inv) (hd : s.dstate = .skip) (hl : 2 ≤ s.rawLen) :
    State.Inv { s with ofs := 1, dstate := .hdr } :=
  { h with
    ofsFits := h.index_lt (by omega : 1 ≤ s.rawLen)
    hdrPlace := fun _ => ⟨rfl, hl⟩
    pairPlace := by simp
    finPlace := by simp
    decBusyNotDone := fun _ => h.decBusyNotDone (by simp [hd]) }

theorem State.Inv.header {s : State} (h : s.Inv) (hd : s.dstate = .hdr) :
    State.Inv { s with ofs := 2, data := 0, dstate := .bits } := by
  obtain ⟨-, hl⟩ := h.hdrPlace hd
  exact
  { h with
    ofsFits := h.index_lt hl
    dataFits := Nat.two_pow_pos _
    hdrPlace := by simp
    pairPlace := fun _ => ⟨Nat.mod_self 2, le_rfl, hl⟩
    finPlace := by simp
    decBusyNotDone := fun _ => h.decBusyNotDone (by simp [hd]) }

theorem State.Inv.acceptBit {s : State} (h : s.Inv) (hd : s.dstate = .bits) (hr : s.ofs + 2 ≤ s.rawLen) (b : Bool) :
    (s.acceptBit b).Inv := by
  obtain ⟨heven, hlow, -⟩ := h.pairPlace (.inl hd)
  exact
  { h with
    ofsFits := h.index_lt hr
    dataFits := trunc_lt _ _
    hdrPlace := by simp [hd]
    pairPlace := fun _ => ⟨by simp [heven], hlow.trans (Nat.le_add_right _ _), hr⟩
    finPlace := by simp [hd] }

theorem State.Inv.loopExit {s : State} (h : s.Inv) (hd : s.dstate = .bits) (hl : s.rawLen < s.ofs + 2) :
    s.loopExit.Inv :=
  { h with
    hdrPlace := by simp
    pairPlace := fun _ => h.pairPlace (.inl hd)
    finPlace := fun _ => hl
    decBusyNotDone := fun _ => h.decBusyNotDone (by simp [hd]) }

/-- The bit count of an OFS inside RAW fits CNT_W bits (WF7). -/
theorem State.Inv.bitCount_lt {s : State} (h : s.Inv) (hl : s.ofs ≤ s.rawLen) : s.bitCount < 2 ^ s.cfg.cntW := by
  obtain ⟨-, -, hcnt⟩ := Params.shape_of_wf h.cfgWf
  have hcap := h.rawLenIn
  unfold State.bitCount
  omega

theorem State.Inv.finishMatch {s : State} (h : s.Inv) (hd : s.dstate = .fin) : s.finishMatch.Inv := by
  obtain ⟨-, -, hl⟩ := h.pairPlace (.inr hd)
  exact
  { h with
    ofsFits := trunc_lt _ _
    dataFits := trunc_lt _ _
    decValueFits := h.dataFits
    decBitsFits := h.bitCount_lt hl
    hdrPlace := by simp
    pairPlace := by simp
    finPlace := by simp
    decBusyNotDone := by simp }

/-- Every turn of the decoder keeps the invariant. -/
theorem State.Inv.decoderCase {s t : State} (h : s.Inv) (hcase : DecoderCase s t) : t.Inv := by
  cases hcase with
  | idle => exact h
  | lead hd hl => exact h.lead hd hl
  | header d hd => exact h.header hd
  | bit sp m b hd hr => exact h.acceptBit hd hr b
  | exit hd hl => exact h.loopExit hd hl
  | done hd => exact h.finishMatch hd
  | short | noHeader | badSpace | badMark | badLength => exact h.raiseNoMatch

/-! What the encoder does. -/

/-- Both pairs that the encoder emits fit DUR_W bits (WF1). -/
theorem hdrPair_fits {p : Params} (h : p.wf = true) : p.hdrPair.mark < 2 ^ p.durW ∧ p.hdrPair.space < 2 ^ p.durW := by
  obtain ⟨hmark, hspace, -⟩ := Params.durations_of_wf h
  exact ⟨hmark, hspace⟩

theorem bitPair_fits {p : Params} (h : p.wf = true) (b : Bool) :
    (p.bitPair b).mark < 2 ^ p.durW ∧ (p.bitPair b).space < 2 ^ p.durW := by
  obtain ⟨-, -, hone, hzero, hspace⟩ := Params.durations_of_wf h
  cases b
  · exact ⟨hzero, hspace⟩
  · exact ⟨hone, hspace⟩

/-- What is written stays written. -/
theorem isSome_read_write {α : Type} {m : Memory α} {i k : Nat} {v : α} (h : k = i ∨ (m.read k).isSome = true) :
    ((m.write i v).read k).isSome = true := by
  rw [Memory.read_write]
  split
  · rfl
  · rename_i hne
    exact h.resolve_left hne

/-- A pair written inside OUT keeps the buffer's part of the invariant. -/
theorem State.Inv.writeOut {s : State} (h : s.Inv) {k : Nat} {q : Pulse} (hk : k < s.cfg.outCap)
    (hq : q.mark < 2 ^ s.cfg.durW ∧ q.space < 2 ^ s.cfg.durW) : State.Inv { s with out := s.out.write k q } :=
  { h with
    outWf := Memory.write_wf h.outWf k q
    outIn := fun c hc => by
      rcases Memory.mem_write hc with rfl | hc
      · exact ⟨hk, hq⟩
      · exact h.outIn c hc
    emittedSoFar := fun he i hi => isSome_read_write (.inr (h.emittedSoFar he i hi))
    trainWritten := fun hd i hi => isSome_read_write (.inr (h.trainWritten hd i hi)) }

theorem State.Inv.raiseEncPrecondition {s : State} (h : s.Inv) : s.raiseEncPrecondition.Inv :=
  { h with
    outLenIn := Nat.zero_le _
    emitPlace := by simp
    emittedSoFar := by simp
    encBusyNotDone := by simp
    trainWritten := by simp }

theorem State.Inv.emitHeader {s : State} (h : s.Inv) (he : s.estate = .hdr) (hb : s.encBitsBad = false) :
    State.Inv { s with out := s.out.write 0 s.cfg.hdrPair, bitIdx := s.encBits - 1, estate := .bits } := by
  obtain ⟨hpos, hle⟩ : 1 ≤ s.encBits ∧ s.encBits ≤ s.cfg.valW := by
    rw [← not_not (a := _ ∧ _), ← s.encBitsBad_iff, hb]
    decide
  exact
  { h.writeOut (Nat.succ_pos _) (hdrPair_fits h.cfgWf) with
    bitIdxFits := (Nat.sub_le _ _).trans_lt h.encBitsFits
    emitPlace := fun _ => ⟨Nat.sub_lt hpos Nat.one_pos, hle⟩
    emittedSoFar := fun _ k hk => isSome_read_write (.inl (by simp only at hk; omega))
    encBusyNotDone := fun _ => h.encBusyNotDone (by simp [he]) }

/-- In E_BITS the pairs emitted so far and the one being emitted are all pairs up to its index (R183). -/
theorem State.Inv.emitted_upTo {s : State} (h : s.Inv) (he : s.estate = .bits) {q : Pulse} {k : Nat}
    (hk : k ≤ s.nextIndex) : ((s.out.write s.nextIndex q).read k).isSome = true := by
  obtain ⟨hlt, -⟩ := h.emitPlace he
  refine isSome_read_write ?_
  rcases Nat.lt_or_eq_of_le hk with hk | hk
  · exact .inr (h.emittedSoFar he k (by unfold State.nextIndex at hk; omega))
  · exact .inl hk

theorem State.Inv.emitBit {s : State} (h : s.Inv) (he : s.estate = .bits) (hk : s.nextIndex < s.cfg.outCap) :
    State.Inv { s with out := s.out.write s.nextIndex (s.cfg.bitPair s.nextBit), bitIdx := s.bitIdx - 1 } := by
  obtain ⟨hlt, hle⟩ := h.emitPlace he
  exact
  { h.writeOut hk (bitPair_fits h.cfgWf s.nextBit) with
    bitIdxFits := (Nat.sub_le _ _).trans_lt h.bitIdxFits
    emitPlace := fun _ => ⟨(Nat.sub_le _ _).trans_lt hlt, hle⟩
    emittedSoFar := fun _ k hk => h.emitted_upTo he (by simp only at hk; unfold State.nextIndex; omega) }

theorem State.Inv.emitLast {s : State} (h : s.Inv) (he : s.estate = .bits) (hi : s.bitIdx = 0)
    (hk : s.nextIndex < s.cfg.outCap) :
    (State.finishEncode { s with out := s.out.write s.nextIndex (s.cfg.bitPair s.nextBit) }).Inv := by
  obtain ⟨hlt, hle⟩ := h.emitPlace he
  exact
  { h.writeOut hk (bitPair_fits h.cfgWf s.nextBit) with
    outLenIn := Nat.succ_le_succ hle
    emitPlace := by simp
    emittedSoFar := by simp
    encBusyNotDone := by simp
    trainWritten := fun _ k hk => h.emitted_upTo he (by
      have hk' : k < s.encBits + 1 := hk
      unfold State.nextIndex
      omega) }

/-- Every turn of the encoder keeps the invariant. -/
theorem State.Inv.encoderCase {s t : State} (h : s.Inv) (hcase : EncoderCase s t) : t.Inv := by
  cases hcase with
  | idle => exact h
  | refuse => exact h.raiseEncPrecondition
  | header he hb => exact h.emitHeader he hb
  | bit he _ hk => exact h.emitBit he hk
  | last he hi hk => exact h.emitLast he hi hk

/-! What the host does. -/

theorem State.Inv.startDecode {s : State} (h : s.Inv) : s.startDecode.Inv := by
  by_cases hd : s.dstate = .idle
  · rw [State.startDecode_of_idle hd]
    exact { h with
      hdrPlace := by simp
      pairPlace := by simp
      finPlace := by simp
      decBusyNotDone := fun _ => rfl }
  · rwa [State.startDecode_of_busy hd]

theorem State.Inv.startEncode {s : State} (h : s.Inv) : s.startEncode.Inv := by
  by_cases he : s.estate = .idle
  · rw [State.startEncode_of_idle he]
    exact { h with
      emitPlace := by simp
      emittedSoFar := by simp
      encBusyNotDone := fun _ => rfl
      trainWritten := by simp }
  · rwa [State.startEncode_of_busy he]

/-- With the decoder idle, RAW and RAW_LEN may hold anything that is in range. -/
theorem State.Inv.setCapture {s : State} (h : s.Inv) (hd : s.dstate = .idle) {m : Memory Nat} {n : Nat}
    (hwf : m.wf = true) (hin : ∀ c ∈ m, c.1 < s.cfg.rawCap ∧ c.2 < 2 ^ s.cfg.durW) (hn : n ≤ s.cfg.rawCap) :
    State.Inv { s with raw := m, rawLen := n } :=
  { h with
    rawWf := hwf
    rawIn := hin
    rawLenIn := hn
    hdrPlace := by simp [hd]
    pairPlace := by simp [hd]
    finPlace := by simp [hd] }

/-- With the encoder idle, ENC_VALUE and ENC_BITS may hold anything that fits. -/
theorem State.Inv.setOperands {s : State} (h : s.Inv) (he : s.estate = .idle) {v n : Nat} (hv : v < 2 ^ s.cfg.valW)
    (hn : n < 2 ^ s.cfg.cntW) : State.Inv { s with encValue := v, encBits := n } :=
  { h with
    encValueFits := hv
    encBitsFits := hn
    emitPlace := by simp [he]
    emittedSoFar := by simp [he] }

/-- Every move of the host keeps the invariant. -/
theorem State.Inv.hostCase {s t : State} (h : s.Inv) (hcase : HostCase s t) : t.Inv := by
  cases hcase with
  | same => exact h
  | startDec => exact h.startDecode
  | startEnc => exact h.startEncode
  | startBoth => exact h.startDecode.startEncode
  | raw i e hd hi he =>
    refine h.setCapture hd (Memory.write_wf h.rawWf i e) (fun c hc => ?_) h.rawLenIn
    rcases Memory.mem_write hc with rfl | hc
    · exact ⟨hi, he⟩
    · exact h.rawIn c hc
  | rawLen n hd hn => exact h.setCapture hd h.rawWf h.rawIn hn
  | capture es n hd hl he =>
    refine (h.setCapture hd (Memory.writeList_wf h.rawWf 0 es) (fun c hc => ?_) hl).outside s.moves s.sched n
    rcases Memory.mem_writeList hc with hc | ⟨-, hlt, hmem⟩
    · exact h.rawIn c hc
    · exact ⟨by omega, he c.2 hmem⟩
  | encValue v hd hv => exact h.setOperands hd hv h.encBitsFits
  | encBits n hd hn => exact h.setOperands hd h.encValueFits hn
  | operands v n hd hv hn => exact h.setOperands hd hv hn
  | wait m => exact h.outside (m :: s.moves) s.sched s.draws
  | reset => exact (inv_resetOf h.cfgWf).outside s.moves s.sched s.draws

/-- Every turn of an agent keeps the invariant. -/
theorem State.Inv.turn {s t : State} (h : s.Inv) {a : Agent} (hturn : turn a s = .next t) : t.Inv := by
  cases a with
  | decoder => exact h.decoderCase (decoderTurn_iff.mp hturn)
  | encoder => exact h.encoderCase (encoderTurn_iff.mp hturn)
  | host =>
    rcases hostTurn_next hturn with rfl | ⟨m, rest, -, hcase⟩
    · exact h
    · exact (h.outside rest s.sched s.draws).hostCase hcase

/-- Settles O57: a step is one agent's turn in the state whose schedule has moved on. -/
theorem stepKeepsTheInvariant : Obligations.StepKeepsTheInvariant := by
  intro s t hinv hstep
  obtain ⟨-, a, l, hturn⟩ := step_next hstep
  exact (hinv.outside s.moves l s.draws).turn hturn

/-- No move of the host writes the configuration (R33, R75). -/
theorem HostCase.cfg_eq {s t : State} (h : HostCase s t) : t.cfg = s.cfg := by
  cases h with
  | startDec => exact s.startDecode_cfg
  | startEnc => exact s.startEncode_cfg
  | startBoth => exact s.startDecode.startEncode_cfg.trans s.startDecode_cfg
  | same | raw | rawLen | capture | encValue | encBits | operands | wait | reset => rfl

/-- No turn writes the configuration: for the engines it is part of their frame (R33, R75). -/
theorem turn_cfg {s t : State} {a : Agent} (h : turn a s = .next t) : t.cfg = s.cfg := by
  cases a with
  | decoder => exact (congrArg State.cfg (decoderTurn_iff.mp h).eq_withDecoderOf :)
  | encoder => exact (congrArg State.cfg (encoderTurn_iff.mp h).eq_withEncoderOf :)
  | host =>
    rcases hostTurn_next h with rfl | ⟨m, rest, -, hcase⟩
    · rfl
    · exact hcase.cfg_eq

/-- Settles O58: a step is one agent's turn in the state whose schedule has moved on. -/
theorem configurationNeverChanges : Obligations.ConfigurationNeverChanges := by
  intro s t hstep
  obtain ⟨-, a, l, hturn⟩ := step_next hstep
  exact turn_cfg (s := { s with sched := l }) hturn

end Sys2Proof.Machine
end

section
/-! PROOFS. Runs of the two engines under any schedule: what one engine does in its own turns, and the other leaves
alone, it does in the whole run (R154, R190, R217). -/

namespace Sys2Proof.Machine

/-- RAW, RAW_LEN and the schedule are written by neither engine (R57, R65). -/
theorem engineTurn_frame {s t : State} {a : Agent} (ha : a ≠ .host) (h : turn a s = .next t) :
    t.raw = s.raw ∧ t.rawLen = s.rawLen ∧ t.sched = s.sched := by
  cases a with
  | host => exact absurd rfl ha
  | decoder =>
    rw [(decoderTurn_iff.mp h).eq_withDecoderOf]
    exact ⟨rfl, rfl, rfl⟩
  | encoder =>
    rw [(encoderTurn_iff.mp h).eq_withEncoderOf]
    exact ⟨rfl, rfl, rfl⟩

/-- On a written capture no engine's turn stops (R68, R154, R190). -/
theorem engineTurn_next {s : State} {a : Agent} (ha : a ≠ .host) (hinv : s.Inv) (hw : s.CaptureWritten) :
    ∃ t, turn a s = .next t := by
  cases a with
  | host => exact absurd rfl ha
  | decoder => exact decoderNeverStopsOnAWrittenCapture s hinv hw
  | encoder => exact encoderNeverStops s hinv

/-- `R n s` says that the engine `a` has at most `n` turns to go in `s`: its own turns count down, a turn of the other
engine changes nothing of it, and it does not speak of the schedule. -/
structure CountsTurns (a : Agent) (R : Nat → State → Prop) : Prop where
  own : ∀ {n : Nat} {s t : State}, s.Inv → R n s → turn a s = .next t → R (n - 1) t
  other : ∀ {n : Nat} {s t : State} {b : Agent}, b ≠ a → b ≠ .host → R n s → turn b s = .next t → R n t
  sched : ∀ {n : Nat} {s : State} (l : List Agent), R n s → R n { s with sched := l }

/-- The whole schedule is run, and every turn of `a` in it has counted (R217). -/
theorem run_engines {a : Agent} {R : Nat → State → Prop} (hR : CountsTurns a R) {l : List Agent} {n : Nat} {s : State}
    (hs : s.sched = l) (hinv : s.Inv) (hw : s.CaptureWritten) (hl : ∀ b ∈ l, b ≠ Agent.host) (h : R n s) :
    ∃ t : State, Sys2Proof.core.run l.length s = .next t ∧ R (n - l.count a) t := by
  induction l generalizing n s with
  | nil => exact ⟨s, rfl, h⟩
  | cons b l ih =>
    have hb : b ≠ .host := hl b List.mem_cons_self
    have hinv' := hinv.outside s.moves l s.draws
    obtain ⟨u, hu⟩ := engineTurn_next hb hinv' hw
    obtain ⟨hraw, hlen, hsched⟩ := engineTurn_frame hb hu
    have hwu : u.CaptureWritten := by
      unfold State.CaptureWritten
      rw [hraw, hlen]
      exact hw
    have hstep : step s = .next u := (step_of_sched hinv.cfgWf hs).trans hu
    have hl' : ∀ c ∈ l, c ≠ Agent.host := fun c hc => hl c (List.mem_cons_of_mem b hc)
    rw [List.length_cons, run_of_next l.length hstep]
    by_cases hba : b = a
    · subst hba
      rw [List.count_cons_self, Nat.add_comm, Nat.sub_add_eq]
      exact ih hsched (hinv'.turn hu) hwu hl' (hR.own hinv' (hR.sched l h) hu)
    · rw [List.count_cons_of_ne hba]
      exact ih hsched (hinv'.turn hu) hwu hl' (hR.other hba hb (hR.sched l h) hu)

end Sys2Proof.Machine
end

section
/-! PROOFS. DECODE refines its frame function (R152): what the decoder will report is the same before and after each of
its turns, and each turn brings the report nearer. -/

namespace Sys2Proof.Machine

theorem State.HoldsCapture.captureWritten {s : State} {es : List Nat} (h : s.HoldsCapture es) : s.CaptureWritten := by
  intro i hi
  rw [h.1] at hi
  simp [h.2 i hi, hi]

/-- What a turn reads below RAW_LEN is the capture's element. -/
theorem State.HoldsCapture.getElem_of_read {s : State} {es : List Nat} (h : s.HoldsCapture es) {i d : Nat}
    (hi : i < s.rawLen) (hd : s.readRaw i = .ok d) : es[i]? = some d := by
  obtain ⟨-, hread⟩ := State.readRaw_ok.mp hd
  rw [← h.2 i (h.1 ▸ hi), hread]

/-- What a pair turn reads is the head of the capture from OFS on. -/
theorem State.HoldsCapture.drop_eq {s : State} {es : List Nat} (h : s.HoldsCapture es) {i sp m : Nat}
    (hi : i + 2 ≤ s.rawLen) (hsp : s.readRaw i = .ok sp) (hm : s.readRaw (i + 1) = .ok m) :
    es.drop i = sp :: m :: es.drop (i + 2) := by
  obtain ⟨h1, hsp⟩ := List.getElem?_eq_some_iff.mp (h.getElem_of_read (by omega) hsp)
  obtain ⟨h2, hm⟩ := List.getElem?_eq_some_iff.mp (h.getElem_of_read (by omega) hm)
  rw [List.drop_eq_getElem_cons h1, List.drop_eq_getElem_cons h2, hsp, hm]

/-- What the decoder will report, or has reported, on the capture `es`, by the state it is in (R142 to R151). -/
def State.outcome (s : State) (es : List Nat) : Option (Nat × Nat) :=
  match s.dstate with
  | .idle => if s.decMatch then some (s.decValue, s.decBits) else none
  | .skip => s.cfg.decodeFrame es
  | .hdr => s.cfg.decodeFrame es
  | .bits => (s.cfg.decodePairs s.ofs s.data (es.drop s.ofs)).bind (reportOf s.cfg)
  | .fin => reportOf s.cfg (s.data, s.ofs)

/-- How many turns the decoder has to go at most (R154). -/
def State.turnsLeft (s : State) : Nat :=
  match s.dstate with
  | .idle => 0
  | .skip => 4 + (s.rawLen - 2) / 2
  | .hdr => 3 + (s.rawLen - 2) / 2
  | .bits => 2 + (s.rawLen - s.ofs) / 2
  | .fin => 1

theorem State.outcome_raiseNoMatch (s : State) (es : List Nat) : s.raiseNoMatch.outcome es = none := rfl

theorem State.outcome_finishMatch (s : State) (es : List Nat) :
    s.finishMatch.outcome es = some (s.data, s.bitCount) := rfl

theorem State.outcome_of_skip {s : State} (h : s.dstate = .skip) (es : List Nat) :
    s.outcome es = s.cfg.decodeFrame es := by
  rw [State.outcome, h]

theorem State.outcome_of_hdr {s : State} (h : s.dstate = .hdr) (es : List Nat) :
    s.outcome es = s.cfg.decodeFrame es := by
  rw [State.outcome, h]

theorem State.outcome_of_bits {s : State} (h : s.dstate = .bits) (es : List Nat) :
    s.outcome es = (s.cfg.decodePairs s.ofs s.data (es.drop s.ofs)).bind (reportOf s.cfg) := by
  rw [State.outcome, h]

theorem State.outcome_of_fin {s : State} (h : s.dstate = .fin) (es : List Nat) :
    s.outcome es = if s.lengthBad then none else some (s.data, s.bitCount) := by
  rw [State.outcome, h, s.lengthBad_eq]
  show (if s.cfg.lengthOk s.bitCount then some (s.data, s.bitCount) else none) = _
  cases s.cfg.lengthOk s.bitCount <;> rfl

/-- The frame function on a capture whose header mark has been read (R143, R152). -/
theorem State.outcome_of_headerRead {s : State} {es : List Nat} (h : s.HoldsCapture es) (hd : s.dstate = .hdr)
    (hl : 2 ≤ s.rawLen) {d : Nat} (hread : s.readRaw 1 = .ok d) :
    s.outcome es = if s.cfg.matches d s.cfg.hdrMarkUs then
      (s.cfg.decodePairs 2 0 (es.drop 2)).bind (reportOf s.cfg) else none := by
  obtain ⟨g, m, rest, rfl⟩ := eq_cons_cons_of_two_le (h.1 ▸ hl)
  obtain rfl : m = d := Option.some.inj (h.getElem_of_read hl hread)
  rw [State.outcome_of_hdr hd, decodeFrame_cons_cons]
  rfl

/-- One pair of the loop, on a capture whose pair has been read (R145 to R148, R152). -/
theorem State.outcome_of_pairRead {s : State} {es : List Nat} (h : s.HoldsCapture es) (hd : s.dstate = .bits)
    (hr : s.ofs + 2 ≤ s.rawLen) {sp m : Nat} (hsp : s.readRaw s.ofs = .ok sp) (hm : s.readRaw (s.ofs + 1) = .ok m) :
    s.outcome es = if s.cfg.matches sp s.spaceHere then
      (s.cfg.bitOfMark m).bind fun b => (s.acceptBit b).outcome es else none := by
  rw [State.outcome_of_bits hd, h.drop_eq hr hsp hm, decodePairs_pair]
  split
  · rename_i hs
    rw [State.spaceHere, if_pos hs]
    cases s.cfg.bitOfMark m with
    | none => rfl
    | some b =>
      have hd' : (s.acceptBit b).dstate = .bits := hd
      rw [Option.bind_some, Option.bind_some, State.outcome_of_bits hd', State.acceptBit_data, s.shiftIn_eq]
      rfl
  · rename_i hs
    rw [State.spaceHere, if_neg hs]
    rfl

/-- No turn of the decoder changes what it will report. -/
theorem DecoderCase.outcome_eq {s t : State} {es : List Nat} (hcase : DecoderCase s t) (hinv : s.Inv)
    (h : s.HoldsCapture es) : t.outcome es = s.outcome es := by
  cases hcase with
  | idle => rfl
  | short hd hl => rw [State.outcome_of_skip hd, decodeFrame_of_short s.cfg (h.1 ▸ hl), State.outcome_raiseNoMatch]
  | lead hd hl => exact (State.outcome_of_skip hd es).symm
  | noHeader d hd hread hm =>
    rw [State.outcome_of_headerRead h hd (hinv.hdrPlace hd).2 hread, hm, State.outcome_raiseNoMatch]
    rfl
  | header d hd hread hm =>
    rw [State.outcome_of_headerRead h hd (hinv.hdrPlace hd).2 hread, if_pos hm]
    rfl
  | badSpace sp hd hr hsp hs =>
    obtain ⟨m, hm⟩ := State.readRaw_of_written hinv h.captureWritten (show s.ofs + 1 < s.rawLen by omega)
    rw [State.outcome_of_pairRead h hd hr hsp hm, hs, State.outcome_raiseNoMatch]
    rfl
  | badMark sp m hd hr hsp hs hm hb =>
    rw [State.outcome_of_pairRead h hd hr hsp hm, if_pos hs, hb, State.outcome_raiseNoMatch]
    rfl
  | bit sp m b hd hr hsp hs hm hb =>
    rw [State.outcome_of_pairRead h hd hr hsp hm, if_pos hs, hb, Option.bind_some]
  | exit hd hl =>
    have hshort : (es.drop s.ofs).length < 2 := by
      rw [List.length_drop, ← h.1]
      omega
    rw [State.outcome_of_bits hd, decodePairs_of_short _ _ _ hshort]
    rfl
  | badLength hd hbad => rw [State.outcome_of_fin hd, if_pos hbad, State.outcome_raiseNoMatch]
  | done hd hok =>
    rw [State.outcome_of_fin hd, hok, State.outcome_finishMatch]
    rfl

/-- Every turn of the decoder counts (R154). -/
theorem DecoderCase.turnsLeft_le {s t : State} (hcase : DecoderCase s t) : t.turnsLeft ≤ s.turnsLeft - 1 := by
  cases hcase with
  | idle hd => simp [State.turnsLeft, hd]
  | lead hd hl => simp [State.turnsLeft, hd]
  | header d hd => simp [State.turnsLeft, hd]
  | bit sp m b hd hr =>
    simp only [State.turnsLeft, State.acceptBit_dstate, State.acceptBit_rawLen, State.acceptBit_ofs, hd]
    omega
  | exit hd hl => simp [State.turnsLeft, hd]
  | done | short | noHeader | badSpace | badMark | badLength => exact Nat.zero_le _

/-- A busy decoder that becomes idle has finished (R151, R207). -/
theorem DecoderCase.decDone_of_idle {s t : State} (hcase : DecoderCase s t) (hidle : t.dstate = .idle)
    (hs : s.dstate = .idle → s.decDone = true) : t.decDone = true := by
  cases hcase with
  | idle hd => exact hs hd
  | bit sp m b hd => cases hd.symm.trans hidle
  | lead | header | exit => cases hidle
  | done | short | noHeader | badSpace | badMark | badLength => rfl

/-- The decoder of `s` will report `r` on the capture `es` within `n` of its turns; RAW, RAW_LEN and the configuration
are those of `s₀`. -/
structure Decoding (s₀ : State) (es : List Nat) (r : Option (Nat × Nat)) (n : Nat) (s : State) : Prop where
  raw : s.raw = s₀.raw
  rawLen : s.rawLen = s₀.rawLen
  cfg : s.cfg = s₀.cfg
  outcome : s.outcome es = r
  turns : s.turnsLeft ≤ n
  done : s.dstate = .idle → s.decDone = true

theorem Decoding.holdsCapture {s₀ s : State} {es : List Nat} {r : Option (Nat × Nat)} {n : Nat}
    (h : Decoding s₀ es r n s) (hes : s₀.HoldsCapture es) : s.HoldsCapture es := by
  unfold State.HoldsCapture
  rw [h.raw, h.rawLen]
  exact hes

/-- The encoder's registers and the schedule have no part in a DECODE (R217). -/
theorem Decoding.withEncoderOf {s₀ s : State} {es : List Nat} {r : Option (Nat × Nat)} {n : Nat}
    (h : Decoding s₀ es r n s) (e : State) (l : List Agent) :
    Decoding s₀ es r n { s.withEncoderOf e with sched := l } :=
  ⟨h.raw, h.rawLen, h.cfg, h.outcome, h.turns, h.done⟩

/-- One turn of the decoder (R140). -/
theorem Decoding.turn {s₀ s t : State} {es : List Nat} {r : Option (Nat × Nat)} {n : Nat} (hes : s₀.HoldsCapture es)
    (hinv : s.Inv) (h : Decoding s₀ es r n s) (hcase : DecoderCase s t) : Decoding s₀ es r (n - 1) t where
  raw := (congrArg State.raw hcase.eq_withDecoderOf :).trans h.raw
  rawLen := (congrArg State.rawLen hcase.eq_withDecoderOf :).trans h.rawLen
  cfg := (congrArg State.cfg hcase.eq_withDecoderOf :).trans h.cfg
  outcome := (hcase.outcome_eq hinv (h.holdsCapture hes)).trans h.outcome
  turns := hcase.turnsLeft_le.trans (Nat.sub_le_sub_right h.turns 1)
  done := fun hidle => hcase.decDone_of_idle hidle h.done

theorem decoding_countsTurns {s₀ : State} {es : List Nat} (hes : s₀.HoldsCapture es) (r : Option (Nat × Nat)) :
    CountsTurns .decoder (Decoding s₀ es r) where
  own := fun hinv h hturn => h.turn hes hinv (decoderTurn_iff.mp hturn)
  other := fun {_ s t b} hb hhost h hturn => by
    cases b with
    | decoder => exact absurd rfl hb
    | host => exact absurd rfl hhost
    | encoder =>
      rw [(encoderTurn_iff.mp hturn).eq_withEncoderOf]
      exact h.withEncoderOf t s.sched
  sched := fun {_ s} l h => h.withEncoderOf s l

/-- With no turn left the report stands in the result registers (R151, R207). -/
theorem Decoding.reports {s₀ s : State} {es : List Nat} {r : Option (Nat × Nat)} (h : Decoding s₀ es r 0 s) :
    s.Reports r := by
  have hidle : s.dstate = .idle := by
    have hturns := h.turns
    cases hd : s.dstate <;> simp [State.turnsLeft, hd] at hturns ⊢
  have hout := h.outcome
  rw [State.outcome, hidle] at hout
  refine ⟨hidle, h.done hidle, ?_⟩
  cases hm : s.decMatch <;> simp only [hm, if_true, Bool.false_eq_true, if_false] at hout <;> subst hout
  · rfl
  · exact ⟨rfl, rfl, rfl⟩

/-- Settles O26: at the start the decoder will report the frame function within the bound of R154, and the run of the
schedule uses the bound up. -/
theorem decodeComputesTheFrameFunction : Obligations.DecodeComputesTheFrameFunction := by
  intro s es hinv hd hes hsched hcount
  have hstart : Decoding s es (s.cfg.decodeFrame es) (4 + (s.rawLen - 2) / 2) s :=
    ⟨rfl, rfl, rfl, State.outcome_of_skip hd es, by rw [State.turnsLeft, hd], by simp [hd]⟩
  obtain ⟨t, hrun, ht⟩ := run_engines (decoding_countsTurns hes _) rfl hinv hes.captureWritten hsched hstart
  rw [Nat.sub_eq_zero_of_le hcount] at ht
  exact ⟨t, hrun, ht.reports, ht.raw, ht.rawLen, ht.cfg⟩

/-- Two finished DECODEs that report the same agree in what the host may read (R246). -/
theorem State.Reports.agree {s t : State} {r : Option (Nat × Nat)} (hs : s.Reports r) (ht : t.Reports r) :
    s.decDone = true ∧ t.decDone = true ∧ s.decMatch = t.decMatch ∧
      (s.decMatch = true → s.decValue = t.decValue ∧ s.decBits = t.decBits) := by
  obtain ⟨-, hsd, hs⟩ := hs
  obtain ⟨-, htd, ht⟩ := ht
  cases r with
  | none => exact ⟨hsd, htd, hs.trans ht.symm, fun hm => by cases hs.symm.trans hm⟩
  | some r =>
    obtain ⟨hsm, hsv, hsb⟩ := hs
    obtain ⟨htm, htv, htb⟩ := ht
    exact ⟨hsd, htd, hsm.trans htm.symm, fun _ => ⟨hsv.trans htv.symm, hsb.trans htb.symm⟩⟩

/-- Settles O27: both runs report the frame function of the one capture under the one configuration. -/
theorem decodeDependsOnCaptureAndConfigurationOnly : Obligations.DecodeDependsOnCaptureAndConfigurationOnly := by
  intro s s' t t' es hinv hinv' hcfg hd hd' hes hes' hsched hsched' hcount hcount' hrun hrun'
  obtain ⟨u, hu, hreports, -⟩ := decodeComputesTheFrameFunction s es hinv hd hes hsched hcount
  obtain ⟨u', hu', hreports', -⟩ := decodeComputesTheFrameFunction s' es hinv' hd' hes' hsched' hcount'
  obtain rfl : u = t := Host.Outcome.next.inj (hu.symm.trans hrun)
  obtain rfl : u' = t' := Host.Outcome.next.inj (hu'.symm.trans hrun')
  rw [← hcfg] at hreports'
  exact State.Reports.agree hreports hreports'

end Sys2Proof.Machine
end

section
/-! PROOFS. ENCODE refines its frame function (R187): the pairs emitted so far are those of the train. -/

namespace Sys2Proof.Machine

/-- The train of the encoder's operands (R187). -/
def State.train (s : State) : List Pulse := s.cfg.hdrPair :: s.cfg.encodeBits s.encValue s.encBits

theorem State.train_length (s : State) : s.train.length = s.encBits + 1 := by
  rw [State.train, List.length_cons, encodeBits_length]

/-- The pair emitted next is the train's pair at its index (R183). -/
theorem State.train_nextIndex {s : State} (h : s.bitIdx < s.encBits) :
    s.train[s.nextIndex]? = some (s.cfg.bitPair s.nextBit) := by
  rw [State.nextIndex, Nat.add_comm, State.train, List.getElem?_cons_succ, encodeBits_getElem _ _ (by omega),
    show s.encBits - 1 - (s.encBits - 1 - s.bitIdx) = s.bitIdx by omega]
  rfl

/-- What a finished ENCODE leaves: the train, or the refusal with OUT as it was (`o`) (R185, R204). -/
def State.EncodeDone (s : State) (o : Memory Pulse) : Prop :=
  s.encDone = true ∧
    match s.cfg.encodeFrame s.encValue s.encBits with
    | some train => s.encErr = false ∧ s.HoldsTrain train
    | none => s.encErr = true ∧ s.outLen = 0 ∧ s.out = o

/-- Where the encoder is in an ENCODE that found `o` in OUT, with at most `n` of its turns to go (R179, R190). -/
inductive EncodePhase (s : State) (o : Memory Pulse) (n : Nat) : Prop
  | start : s.estate = .hdr → s.out = o → 1 + s.encBits ≤ n → EncodePhase s o n
  | emitting : s.estate = .bits → (∀ k < s.encBits - s.bitIdx, s.out.read k = s.train[k]?) → s.bitIdx + 1 ≤ n →
      EncodePhase s o n
  | finished : s.estate = .idle → s.EncodeDone o → EncodePhase s o n

/-- With the pair emitted next, the pairs up to its index are those of the train (R183). -/
theorem read_emitted {s : State} (hlt : s.bitIdx < s.encBits)
    (hread : ∀ k < s.encBits - s.bitIdx, s.out.read k = s.train[k]?) {k : Nat} (hk : k ≤ s.nextIndex) :
    (s.out.write s.nextIndex (s.cfg.bitPair s.nextBit)).read k = s.train[k]? := by
  rcases Nat.lt_or_eq_of_le hk with hk | rfl
  · rw [Memory.read_write_other _ _ hk.ne]
    exact hread k (by unfold State.nextIndex at hk; omega)
  · rw [Memory.read_write_same, State.train_nextIndex hlt]

/-- One turn of the encoder (R179): from each phase to the next. -/
theorem EncodePhase.turn {s t : State} {o : Memory Pulse} {n : Nat} (hinv : s.Inv) (h : EncodePhase s o n)
    (hcase : EncoderCase s t) : EncodePhase t o (n - 1) := by
  cases h with
  | finished he hdone =>
    cases hcase with
    | idle => exact .finished he hdone
    | refuse he' | header he' | bit he' | last he' => cases he.symm.trans he'
  | start he hout hn =>
    cases hcase with
    | idle he' | bit he' | last he' => cases he.symm.trans he'
    | refuse _ hbad =>
      have hnone : s.cfg.encodeFrame s.encValue s.encBits = none := if_neg (s.encBitsBad_iff.mp hbad)
      refine .finished rfl ⟨rfl, ?_⟩
      rw [State.raiseEncPrecondition_cfg, State.raiseEncPrecondition_encValue, State.raiseEncPrecondition_encBits,
        hnone]
      exact ⟨rfl, rfl, hout⟩
    | header _ hok =>
      have hpos : 1 ≤ s.encBits := (not_not.mp (mt s.encBitsBad_iff.mpr (by simp [hok]))).1
      refine .emitting rfl (fun k hk => ?_) (show s.encBits - 1 + 1 ≤ n - 1 by omega)
      obtain rfl : k = 0 := by simp only at hk; omega
      exact s.out.read_write_same 0 _
  | emitting he hread hn =>
    obtain ⟨hlt, hle⟩ := hinv.emitPlace he
    cases hcase with
    | idle he' | refuse he' | header he' => cases he.symm.trans he'
    | bit _ hidx hk =>
      refine .emitting he (fun k hk => read_emitted hlt hread ?_) (show s.bitIdx - 1 + 1 ≤ n - 1 by omega)
      simp only at hk
      unfold State.nextIndex
      omega
    | last _ hidx hk =>
      have hsome : s.cfg.encodeFrame s.encValue s.encBits = some s.train := if_pos ⟨by omega, hle⟩
      refine .finished rfl ⟨rfl, ?_⟩
      rw [State.finishEncode_cfg, State.finishEncode_encValue, State.finishEncode_encBits]
      simp only [hsome]
      refine ⟨rfl, s.train_length.symm, fun k hk => read_emitted hlt hread ?_⟩
      rw [s.train_length] at hk
      unfold State.nextIndex
      omega

/-- The decoder's registers and the schedule have no part in an ENCODE (R217). -/
theorem EncodePhase.withDecoderOf {s : State} {o : Memory Pulse} {n : Nat} (h : EncodePhase s o n) (d : State)
    (l : List Agent) : EncodePhase { s.withDecoderOf d with sched := l } o n := by
  cases h with
  | start he hout hn => exact .start he hout hn
  | emitting he hread hn => exact .emitting he hread hn
  | finished he hdone => exact .finished he hdone

/-- The encoder of `s` is in the ENCODE that `s₀` has started, with at most `n` of its turns to go. -/
structure Encoding (s₀ : State) (n : Nat) (s : State) : Prop where
  cfg : s.cfg = s₀.cfg
  encValue : s.encValue = s₀.encValue
  encBits : s.encBits = s₀.encBits
  phase : EncodePhase s s₀.out n

theorem encoding_countsTurns (s₀ : State) : CountsTurns .encoder (Encoding s₀) where
  own := fun hinv h hturn =>
    have hcase := encoderTurn_iff.mp hturn
    { cfg := (congrArg State.cfg hcase.eq_withEncoderOf :).trans h.cfg
      encValue := (congrArg State.encValue hcase.eq_withEncoderOf :).trans h.encValue
      encBits := (congrArg State.encBits hcase.eq_withEncoderOf :).trans h.encBits
      phase := h.phase.turn hinv hcase }
  other := fun {_ s t b} hb hhost h hturn => by
    cases b with
    | encoder => exact absurd rfl hb
    | host => exact absurd rfl hhost
    | decoder =>
      rw [(decoderTurn_iff.mp hturn).eq_withDecoderOf]
      exact ⟨h.cfg, h.encValue, h.encBits, h.phase.withDecoderOf t s.sched⟩
  sched := fun {_ s} l h => ⟨h.cfg, h.encValue, h.encBits, h.phase.withDecoderOf s l⟩

/-- With no turn left the ENCODE has finished. -/
theorem EncodePhase.done {s : State} {o : Memory Pulse} (h : EncodePhase s o 0) :
    s.estate = .idle ∧ s.EncodeDone o := by
  cases h with
  | start _ _ hn => omega
  | emitting _ _ hn => omega
  | finished he hdone => exact ⟨he, hdone⟩

/-- Settles O41: the run of the schedule uses the bound of R190 up, and the finished ENCODE has its operands as they
were. -/
theorem encodeComputesTheFrameFunction : Obligations.EncodeComputesTheFrameFunction := by
  intro s hinv hw he hsched hcount
  have hstart : Encoding s (1 + s.encBits) s := ⟨rfl, rfl, rfl, .start he rfl le_rfl⟩
  obtain ⟨t, hrun, ht⟩ := run_engines (encoding_countsTurns s) rfl hinv hw hsched hstart
  rw [Nat.sub_eq_zero_of_le hcount] at ht
  obtain ⟨hidle, hdone, hframe⟩ := ht.phase.done
  rw [ht.cfg, ht.encValue, ht.encBits] at hframe
  exact ⟨t, hrun, hidle, hdone, ht.encValue, ht.encBits, hframe⟩

end Sys2Proof.Machine
end

section
/-! PROOFS. The step: which agent it lets move, and what that agent then runs (R93, R106, R140, R179). -/

namespace Sys2Proof.Machine

/-- The host's turn is the move at the head of its list. -/
theorem hostTurn_of_moves {s : State} {m : HostMove} {rest : List HostMove} (h : s.moves = m :: rest) :
    hostTurn s = hostMove m { s with moves := rest } := by
  rw [hostTurn, h]

theorem hostTurn_of_noMoves {s : State} (h : s.moves = []) : hostTurn s = .next s := by
  rw [hostTurn, h]

/-- With both engines idle and an empty schedule the host moves. -/
theorem State.defaultAgent_of_idle {s : State} (hd : s.dstate = .idle) (he : s.estate = .idle) :
    s.defaultAgent = .host := by
  simp [State.defaultAgent, State.decBusy, State.encBusy, hd, he]

/-- A command word is run by the instruction it is (R106). -/
theorem hostMove_cmd {w : Nat} {i : Instr} (h : decodeCmd w = .ok i) (s : State) : hostMove (.cmd w) s = exec i s := by
  simp only [hostMove, runCommand, h]

theorem decodeTableWord_eq_some {nbits w : Nat} {i : Instr} :
    decodeTableWord nbits w = some i ↔ decodeCmd (w % 2 ^ nbits) = .ok i := by
  unfold decodeTableWord
  cases decodeCmd (w % 2 ^ nbits) <;> simp

/-- Settles O43: in both ways for the host to be next the step is the host's turn. -/
theorem stepRunsTheCommandWord : Obligations.StepRunsTheCommandWord := by
  intro s u m rest hwf hmoves hnext
  have hstep : step s = hostMove m u := by
    rcases hnext with ⟨l, hs, rfl⟩ | ⟨hs, hd, he, rfl⟩
    · exact (step_of_sched hwf hs).trans (hostTurn_of_moves hmoves)
    · rw [step_of_noSched hwf hs, State.defaultAgent_of_idle hd he]
      exact hostTurn_of_moves hmoves
  have hu : u.decDone = s.decDone ∧ u.encDone = s.encDone ∧ u.moves = rest := by
    rcases hnext with ⟨l, -, rfl⟩ | ⟨-, -, -, rfl⟩ <;> exact ⟨rfl, rfl, rfl⟩
  obtain ⟨hdec, henc, hrest⟩ := hu
  refine ⟨hstep, ?_, ?_, ?_⟩
  · rintro w i rfl hi
    exact hstep.trans (hostMove_cmd hi u)
  · rintro rfl
    rw [hstep, hmoves, ← hdec, ← hrest]
    rfl
  · rintro rfl
    rw [hstep, hmoves, ← henc, ← hrest]
    rfl

/-- Settles O44: the word stands at the head of the host's moves, and the host at the head of the schedule. -/
theorem placedWordRunsNext : Obligations.PlacedWordRunsNext := by
  intro s nbits w i hwf hword
  calc step (s.withFetchWord nbits w)
      = hostTurn { s.withFetchWord nbits w with sched := s.sched } :=
        step_of_sched (s := s.withFetchWord nbits w) hwf rfl
    _ = hostMove (.cmd (w % 2 ^ nbits)) s := hostTurn_of_moves rfl
    _ = exec i s := hostMove_cmd (decodeTableWord_eq_some.mp hword) s

/-- In D_BITS the turn on a pair that decodes is the meaning of the symbol (R96, R97). -/
theorem decoderTurn_of_pair {s : State} {sp m : Nat} {i : Instr} (hd : s.dstate = .bits) (hr : s.ofs + 2 ≤ s.rawLen)
    (hsp : s.readRaw s.ofs = .ok sp) (hm : s.readRaw (s.ofs + 1) = .ok m)
    (hi : decodePair s.cfg s.ofs sp m = .ok i) : decoderTurn s = exec i s := by
  obtain ⟨hs, hmark⟩ := decodePair_ok.mp hi
  have hrun {b : Bool} (hb : s.cfg.bitOfMark m = some b) : decoderTurn s = pairStep sp m s := by
    rw [decoderTurn_iff.mpr (.bit sp m b hd hr hsp hs hm hb), pairStep_of_space hd hr hs, hb]
  rcases hmark with ⟨hb, rfl⟩ | ⟨hb, rfl⟩
  · exact hrun hb
  · exact hrun hb

/-- Settles O45: the step is the decoder's turn, and in each state of the decoder the turn is that of the symbol. -/
theorem stepRunsTheReceivedSymbol : Obligations.StepRunsTheReceivedSymbol := by
  rintro s u l hwf hs rfl
  have hstep : step s = decoderTurn { s with sched := l } := step_of_sched hwf hs
  rw [hstep]
  refine ⟨fun hd => ?_, fun d i hd hread hi => ?_, fun sp m i hd hr hsp hm hi => ?_⟩
  · exact decoderTurn_of_skip (s := { s with sched := l }) hd
  · obtain ⟨hmatch, rfl⟩ := decodeHdrm_ok.mp ((decodeRx_one s.cfg d).symm.trans hi)
    exact ((headerMarkInItsBandIsAccepted { s with sched := l } d hd hmatch).2 hread).2
  · rw [decodeRx_pair] at hi
    split at hi
    · exact decoderTurn_of_pair (s := { s with sched := l }) hd hr hsp hm hi
    · cases hi

/-- Settles O46: the step is the encoder's turn, and the next bit selects its symbol. -/
theorem stepRunsTheEmittedSymbol : Obligations.StepRunsTheEmittedSymbol := by
  rintro s u l hwf hs rfl
  have hstep : step s = encoderTurn { s with sched := l } := step_of_sched hwf hs
  rw [hstep]
  refine ⟨fun he => ?_, fun he hbit => ?_, fun he hbit => ?_⟩
  · exact encoderTurn_of_hdr (s := { s with sched := l }) he
  · rw [encoderTurn_of_bits (s := { s with sched := l }) he, State.emitted,
      show State.nextBit { s with sched := l } = true from hbit]
    rfl
  · rw [encoderTurn_of_bits (s := { s with sched := l }) he, State.emitted,
      show State.nextBit { s with sched := l } = false from hbit]
    rfl

/-- The pair step is refused where no pair can stand. -/
theorem pairStep_of_noPair {s : State} (sp m : Nat) (h : s.dstate ≠ .bits ∨ s.rawLen < s.ofs + 2) :
    pairStep sp m s = .refused .symbolOutOfPlace := by
  refine if_neg ?_
  rw [State.pairRemains_iff]
  rintro ⟨hd, hr⟩
  exact h.elim (fun hne => hne hd) (fun hlt => by omega)

/-- Settles O47: each symbol's meaning tests its place first. -/
theorem symbolsOutOfPlaceAreRefused : Obligations.SymbolsOutOfPlaceAreRefused := by
  intro s
  refine ⟨fun h => if_neg h, fun d h => if_neg h, fun sp m h => ⟨?_, ?_⟩, fun h => if_neg h, fun h => if_neg ?_,
    fun h => if_neg ?_⟩
  · exact pairStep_of_noPair sp m h
  · exact pairStep_of_noPair sp m h
  · rintro ⟨he, hbit⟩
    exact h.elim (fun hne => hne he) (fun hzero => by cases hzero.symm.trans hbit)
  · rintro ⟨he, hbit⟩
    exact h.elim (fun hne => hne he) (fun hone => by cases hone.symm.trans hbit)

/-- No turn of the decoder is refused: it answers next or stops on a read. -/
theorem decoderTurn_ne_refused (s : State) (r : Refusal) : decoderTurn s ≠ .refused r := by
  intro h
  rcases decoderTurn_next_or_fault s with ⟨t, ht⟩ | ⟨i, f, hf, -⟩
  · cases h.symm.trans ht
  · cases h.symm.trans hf

/-- Settles O48: the decoder's turn is never refused, and the encoder's turn answers next. -/
theorem engineStepsAreNeverRefused : Obligations.EngineStepsAreNeverRefused := by
  intro s a l r hinv hs ha
  rw [step_of_sched hinv.cfgWf hs]
  cases a with
  | host => exact absurd rfl ha
  | decoder => exact decoderTurn_ne_refused _ r
  | encoder =>
    obtain ⟨t, ht⟩ := encoderNeverStops _ (hinv.outside s.moves l s.draws)
    intro h
    cases h.symm.trans ht

/-- An idle engine and a host without moves use up their turn (R256). -/
theorem turn_of_quiescent {s : State} (h : s.Quiescent) (a : Agent) : turn a s = .next s := by
  obtain ⟨hd, he, hm⟩ := h
  cases a with
  | host => exact hostTurn_of_noMoves hm
  | decoder => exact decoderTurn_iff.mpr (.idle hd)
  | encoder => exact encoderTurn_iff.mpr (.idle he)

/-- Settles O60: whichever agent is next uses up its turn. -/
theorem quiescentMachineStays : Obligations.QuiescentMachineStays := by
  intro s hwf hq
  refine ⟨fun hs => ?_, fun a l hs => ?_⟩
  · exact (step_of_noSched hwf hs).trans (turn_of_quiescent hq _)
  · exact (step_of_sched hwf hs).trans (turn_of_quiescent (s := { s with sched := l }) hq a)

/-- A duration parameter is legal exactly when it is positive and fits (R10). -/
theorem durOk_iff {p : Params} {d : Nat} : p.durOk d = true ↔ 0 < d ∧ d < 2 ^ p.durW := by
  simp [Params.durOk, fits]

/-- A step under parameters that are not well formed is refused (R10). -/
theorem step_of_illFormed {s : State} (h : s.cfg.wf ≠ true) : step s = .refused .illFormedConfig := if_neg h

/-- Settles O59: each cause contradicts one of the conditions WF1 to WF7. -/
theorem illFormedInstanceTakesNoStep : Obligations.IllFormedInstanceTakesNoStep := by
  intro s hbad
  refine step_of_illFormed fun hwf => ?_
  obtain ⟨hdur, hdiff, hcarrier, hsep, hrange, htol, hshape⟩ := (Params.wf_iff s.cfg).mp hwf
  simp only [Params.durationsOk, durOk_iff, Bool.and_eq_true] at hdur
  simp only [Params.marksDiffer, Params.carrierOk, Params.bitRangeOk, Params.toleranceOk, fits, Bool.and_eq_true,
    decide_eq_true_eq] at hdiff hcarrier hrange htol
  simp only [Params.marksSeparable, Bool.not_eq_true'] at hsep
  simp only [Params.shapeOk, fits, Bool.and_eq_true, decide_eq_true_eq] at hshape
  obtain ⟨hshape, henc⟩ := hshape
  simp only [henc, hsep, Bool.false_eq_true, reduceCtorEq, false_or] at hbad
  omega

end Sys2Proof.Machine
end

section
/-! PROOFS. The host's side of the block: loads and writes, LOOPBACK, reads, reset (R57, R73, R78, R108, R240). -/

namespace Sys2Proof.Machine

/-- Loading a capture that has its place in RAW (R108). -/
theorem loadCapture_holds {s : State} {es : List Nat} (hd : s.dstate = .idle) (hl : es.length ≤ s.cfg.rawCap)
    (he : ∀ e ∈ es, e < 2 ^ s.cfg.durW) :
    ∃ t, loadCapture es s = .next t ∧ t.HoldsCapture es ∧ (∀ i, es.length ≤ i → t.raw.read i = s.raw.read i) ∧
      t = { s with raw := t.raw, rawLen := es.length } := by
  refine ⟨_, loadCapture_of_legal hd hl he, ⟨rfl, fun i hi => ?_⟩, fun i hi => ?_, rfl⟩
  · rw [Memory.read_writeList, if_pos ⟨Nat.zero_le i, by omega⟩, Nat.sub_zero]
  · rw [Memory.read_writeList, if_neg (by omega)]

/-- Settles O49: LOADRAW is the load of a capture. -/
theorem loadedCaptureIsHeld : Obligations.LoadedCaptureIsHeld :=
  fun _ _ hd hl he => loadCapture_holds hd hl he

/-- A LOOPBACK before ENC_DONE takes a train whose capture has room in RAW. -/
theorem captureOf_loopTrain_length_le {s : State} (hwf : s.cfg.wf = true) (hdone : s.encDone = false) (g : Nat)
    (tail : Bool) : (captureOf g tail (s.loopTrain tail)).length ≤ s.cfg.rawCap := by
  obtain ⟨hcap, -⟩ := Params.shape_of_wf hwf
  have hlen := State.loopLen_le_of_notDone tail hdone
  rw [captureOf_length, State.loopTrain, List.length_map, List.length_range]
  unfold loopMax at hlen
  cases tail <;> simp only [if_true, Bool.false_eq_true, if_false] at hlen ⊢ <;> omega

/-- A LOOPBACK before ENC_DONE takes a train whose durations fit DUR_W. -/
theorem captureOf_loopTrain_fits {s : State} (hdone : s.encDone = false) {g : Nat} (hg : g < 2 ^ s.cfg.durW)
    (tail : Bool) : ∀ e ∈ captureOf g tail (s.loopTrain tail), e < 2 ^ s.cfg.durW := by
  intro e he
  rcases mem_captureOf he with rfl | ⟨q, hq, he⟩
  · exact hg
  · obtain ⟨k, -, rfl⟩ := List.mem_map.mp hq
    obtain ⟨hmark, hspace⟩ := s.seenOut_lt_of_notDone hdone k
    rcases he with rfl | rfl
    · exact hmark
    · exact hspace

/-- Settles O52: LOOPBACK loads the capture of the train it takes, which after ENC_DONE is the one that OUT holds, and
before it has its place in RAW. -/
theorem loopBackLoadsTheEncodedTrain : Obligations.LoopBackLoadsTheEncodedTrain := by
  refine ⟨?_, ?_⟩
  · rintro s train g tail es hd hdone htrain rfl hl he
    have hload : hostMove (.loopback g tail) s = loadCapture (captureOf g tail train) s := by
      rw [hostMove, loopBack, State.loopTrain_of_done tail hdone htrain, if_pos hdone]
    rw [hload]
    exact loadCapture_holds hd hl he
  · intro s g tail hwf hd hdone hg
    have hl := captureOf_loopTrain_length_le hwf hdone g tail
    have hload : hostMove (.loopback g tail) s =
        loadCapture (captureOf g tail (s.loopTrain tail)) { s with draws := s.draws + 1 } := by
      rw [hostMove, loopBack, if_neg (by simp [hdone])]
    obtain ⟨t, ht, hholds, hrest, heq⟩ := loadCapture_holds (s := { s with draws := s.draws + 1 }) hd hl
      (captureOf_loopTrain_fits hdone hg tail)
    refine ⟨t, _, s.loopTrain tail, hload.trans ht, hholds, hl, rfl, hrest, ?_⟩
    rw [heq]

/-- Settles O50: each write passes its guard, and a write of RAW[i] is read back. -/
theorem hostWritesReachTheirRegister : Obligations.HostWritesReachTheirRegister := by
  intro s i e n v
  refine ⟨fun hd hi he => ?_, fun hd hn => ?_, fun hd hv => ?_, fun hd hn => ?_, fun hd hv hn => ?_⟩
  · exact ⟨_, guardRaw_of_legal hd (by simp [fits, hi, he]),
      State.readRaw_ok.mpr ⟨hi, s.raw.read_write_same i e⟩, fun j hj => s.readRaw_writeRaw_other e hj, rfl⟩
  · exact guardRaw_of_legal hd (by simp [hn])
  · exact guardEnc_of_legal hd (by simp [fits, hv])
  · exact guardEnc_of_legal hd (by simp [fits, hn])
  · exact guardEnc_of_legal hd (by simp [fits, hv, hn])

theorem guardRaw_of_busy {s t : State} {b : Bool} (h : s.dstate ≠ .idle) :
    guardRaw s b t = .refused .hostWriteWhileBusy :=
  if_pos (decide_eq_true h)

theorem guardEnc_of_busy {s t : State} {b : Bool} (h : s.estate ≠ .idle) :
    guardEnc s b t = .refused .hostWriteWhileBusy :=
  if_pos (decide_eq_true h)

/-- Settles O51: every such write passes through one of the two guards. -/
theorem writesWhileBusyHaveNoMeaning : Obligations.WritesWhileBusyHaveNoMeaning := by
  refine fun s m => ⟨?_, ?_⟩
  · rintro hd (⟨i, e, rfl⟩ | ⟨n, rfl⟩ | ⟨es, rfl⟩ | ⟨g, tail, rfl⟩)
    · exact guardRaw_of_busy hd
    · exact guardRaw_of_busy hd
    · exact guardRaw_of_busy hd
    · rw [hostMove, loopBack, loadCapture]
      refine guardRaw_of_busy ?_
      split <;> exact hd
  · rintro he (⟨v, rfl⟩ | ⟨n, rfl⟩ | ⟨v, n, rfl⟩) <;> exact guardEnc_of_busy he

/-- Settles O53: read by read, with the flags that make the content valid. -/
theorem validReadsGiveTheRegister : Obligations.ValidReadsGiveTheRegister := by
  intro s
  refine ⟨rfl, rfl, rfl, rfl, rfl, fun hd => ?_, fun hd hm => ?_, fun hd => ?_, fun k q hd hk hcap hq => ?_,
    fun i d hi hread => ?_, rfl, rfl, rfl⟩
  · simp [hostRead, hd]
  · simp [hostRead, hd, hm]
  · simp [hostRead, hd]
  · rw [hostRead, if_pos hcap, State.seenOut_of_valid hd hk hq]
  · simp [hostRead, hi, hread]

/-- Settles O54: the state after reset, field by field. -/
theorem resetLeavesTheTabledValues : Obligations.ResetLeavesTheTabledValues := by
  rintro p s (rfl | ⟨rfl, rfl⟩) <;>
    exact ⟨rfl, rfl, rfl, rfl, rfl, rfl, rfl, rfl, rfl, fun _ => rfl, fun _ => rfl⟩

/-- Settles O55: the move is `State.applyReset`, in every state. -/
theorem resetAbandonsOperations : Obligations.ResetAbandonsOperations := by
  intro s t h
  obtain rfl : s.applyReset = t := Host.Outcome.next.inj h
  exact ⟨rfl, rfl, rfl, rfl, rfl, rfl, rfl, rfl, rfl, rfl⟩

end Sys2Proof.Machine
end
